-- ==== Sys2Proof/Word.lean ====
section
/-! DEFINITION. The machine's one data type, the byte (00_scope.md R4 `XLEN`, `CELL`; R5). -/

namespace Sys2Proof

/-- A register value, a memory cell, an immediate, an opcode or operand byte: eight bits, unsigned
(00_scope.md R5, 10_state.md R11; the width is the spec's decision D1, log entry 4). -/
abbrev Byte := BitVec 8

end Sys2Proof
end

