-- ==== Sys2Proof/Config.lean ====
section
/-! DEFINITION. The parameters of the hardware with the values the spec gives them (00_scope.md R4).
The spec leaves no value free (93_implementation_defined.md part 2), so no constant here is opaque.
The opcode values `OPC_...` stand in Decode.lean; `STEP_LIMIT` has no value and no counterpart (D14). -/

namespace Sys2Proof.Config

/-- `NREGS` (00_scope.md R4, 10_state.md R11). -/
abbrev numRegs : Nat := 8

/-- `SP_INDEX` (00_scope.md R4, 10_state.md R12). -/
abbrev spIndex : Fin numRegs := 7

/-- `SP_RESET` (00_scope.md R4, 10_state.md R26). -/
def spReset : Byte := 0xF4

/-- `PC_RESET` (00_scope.md R4, 10_state.md R26). -/
def pcReset : Nat := 0

/-- `LOAD_BASE` (00_scope.md R4, 20_memory.md R39). -/
def loadBase : Nat := 0

/-- `MEM_SIZE`: valid addresses are 0 .. 255 (00_scope.md R4, 20_memory.md R30; decision D2, log entry 4). -/
def memSize : Nat := 256

end Sys2Proof.Config
end

