-- ==== Sys2Proof/Syntax.lean ====
section
/-! DEFINITION. The instructions: one constructor per row of spec/opcode_table.json, in its order.
An operand is the WHOLE byte that follows the opcode (30_encoding.md R54): a register operand above 7
is decoded like any other and faults when the instruction runs (40_execution_loop.md R75), so it must be
expressible here. `a` is the byte at pc+1, `b` the byte at pc+2. -/

namespace Sys2Proof

/-- The eleven instructions (00_scope.md R1, 30_encoding.md R56). -/
inductive Instr where
  /-- LDI a,b: load immediate; `a` a register, `b` an immediate (41_data_movement.md R90). -/
  | ldi (a b : Byte)
  /-- PRN a: print (41_data_movement.md R91). -/
  | prn (a : Byte)
  /-- ADD a,b (42_arithmetic.md R101). -/
  | add (a b : Byte)
  /-- SUB a,b (42_arithmetic.md R102). -/
  | sub (a b : Byte)
  /-- MUL a,b (42_arithmetic.md R103). -/
  | mul (a b : Byte)
  /-- PUSH a (43_stack.md R111). -/
  | push (a : Byte)
  /-- POP a (43_stack.md R112). -/
  | pop (a : Byte)
  /-- JMP a (44_control_transfer.md R121). -/
  | jmp (a : Byte)
  /-- CALL a (44_control_transfer.md R122). -/
  | call (a : Byte)
  /-- RET (44_control_transfer.md R123). -/
  | ret
  /-- HLT (40_execution_loop.md R72). -/
  | hlt
  deriving DecidableEq, Repr

end Sys2Proof
end

