-- ==== Sys2Proof/WellFormed.lean ====
section
/-! DEFINITION. Which instructions are well formed: every register operand names one of the eight
registers (30_encoding.md R54, 10_state.md R14). The immediate of LDI is never checked. An instruction
that is not well formed still decodes and still runs: it raises `OutOfBounds` (40_execution_loop.md R75). -/

namespace Sys2Proof

/-- The byte names a register: the full byte is compared, not its low three bits (30_encoding.md R54). -/
def namesRegister (r : Byte) : Bool := decide (r.toNat < Config.numRegs)

/-- The operand bytes that are register indices, `a` before `b` (the table of 30_encoding.md R54). -/
def Instr.registerOperands : Instr → List Byte
  | .ldi a _ => [a]
  | .prn a => [a]
  | .add a b => [a, b]
  | .sub a b => [a, b]
  | .mul a b => [a, b]
  | .push a => [a]
  | .pop a => [a]
  | .jmp a => [a]
  | .call a => [a]
  | .ret => []
  | .hlt => []

/-- Every register operand names a register. -/
def Instr.wellFormed (i : Instr) : Bool := i.registerOperands.all namesRegister

end Sys2Proof
end

