-- ==== Sys2Proof/Decode.lean ====
section
/-! DEFINITION. Encoding and decoding (30_encoding.md): the opcode values, the operand-count decoder, the
dispatch table by the whole opcode byte, the decoder (total on any bytes, rejecting by name), the encoder,
and the assembly notation. -/

namespace Sys2Proof

/-! ### The opcode map (30_encoding.md R56; the numbers are the spec's decision D4, log entry 1) -/

/-- `OPC_LDI` = 0b10000010. -/
def opcLdi : Byte := 0x82
/-- `OPC_PRN` = 0b01000111. -/
def opcPrn : Byte := 0x47
/-- `OPC_ADD` = 0b10100000. -/
def opcAdd : Byte := 0xA0
/-- `OPC_SUB` = 0b10100001. -/
def opcSub : Byte := 0xA1
/-- `OPC_MUL` = 0b10100010. -/
def opcMul : Byte := 0xA2
/-- `OPC_PUSH` = 0b01000101. -/
def opcPush : Byte := 0x45
/-- `OPC_POP` = 0b01000110. -/
def opcPop : Byte := 0x46
/-- `OPC_JMP` = 0b01010100. -/
def opcJmp : Byte := 0x54
/-- `OPC_CALL` = 0b01010000. -/
def opcCall : Byte := 0x50
/-- `OPC_RET` = 0b00010001. -/
def opcRet : Byte := 0x11
/-- `OPC_HLT` = 0b00000001. -/
def opcHlt : Byte := 0x01

/-- The eleven assigned opcode bytes, in the order of 30_encoding.md R56. -/
def assignedOpcodes : List Byte :=
  [opcLdi, opcPrn, opcAdd, opcSub, opcMul, opcPush, opcPop, opcJmp, opcCall, opcRet, opcHlt]

/-! ### The operand-count decoder -/

/-- Bits 7:6 of an opcode byte, the field `N` (30_encoding.md R51). -/
def operandCountField (op : Byte) : Nat := (op >>> 6).toNat

/-- `count(op)` (30_encoding.md R52): 1 or 2 as the field `N` says, and 0 for `N` = 0 and for `N` = 3
(the last is decision D18, following conflict C2). -/
def operandCount (op : Byte) : Nat :=
  if operandCountField op = 1 then 1
  else if operandCountField op = 2 then 2
  else 0

/-! ### Decoding -/

/-- Why a list of bytes is no instruction. -/
inductive DecodeReject where
  /-- There is no opcode byte. -/
  | noOpcode
  /-- The list ends before the operand bytes that the opcode's field `N` asks for. -/
  | missingOperand (op : Byte)
  /-- The opcode byte is none of the eleven (30_encoding.md R59, `UnsupportedOperation`). -/
  | unsupportedOpcode (op : Byte)
  deriving DecidableEq, Repr

/-- The dispatch table (30_encoding.md R57): the handler is selected by all eight bits of the opcode byte,
and takes as many operands as were fetched (40_execution_loop.md R74). HLT is not in it. -/
def dispatchTable (op : Byte) : List Byte → Option Instr
  | [] => if op = opcRet then some .ret else none
  | [a] =>
    if op = opcPrn then some (.prn a)
    else if op = opcPush then some (.push a)
    else if op = opcPop then some (.pop a)
    else if op = opcJmp then some (.jmp a)
    else if op = opcCall then some (.call a)
    else none
  | [a, b] =>
    if op = opcLdi then some (.ldi a b)
    else if op = opcAdd then some (.add a b)
    else if op = opcSub then some (.sub a b)
    else if op = opcMul then some (.mul a b)
    else none
  | _ => none

/-- The first `n` bytes of a list and the rest, if there are that many. -/
def takeBytes : Nat → List Byte → Option (List Byte × List Byte)
  | 0, bytes => some ([], bytes)
  | _ + 1, [] => none
  | n + 1, b :: bytes =>
    match takeBytes n bytes with
    | some (taken, rest) => some (b :: taken, rest)
    | none => none

/-- Decode one instruction from the front of a list of bytes, answering the bytes after it. The order is
that of the loop (40_execution_loop.md R77): halt check, operand bytes, dispatch lookup. -/
def decode : List Byte → Except DecodeReject (Instr × List Byte)
  | [] => .error .noOpcode
  | op :: bytes =>
    if op = opcHlt then .ok (.hlt, bytes)
    else
      match takeBytes (operandCount op) bytes with
      | none => .error (.missingOperand op)
      | some (operands, rest) =>
        match dispatchTable op operands with
        | some i => .ok (i, rest)
        | none => .error (.unsupportedOpcode op)

/-! ### Encoding (the formats F0, F1, F2 of 30_encoding.md R53) -/

/-- The opcode byte of an instruction (30_encoding.md R56). -/
def Instr.opcode : Instr → Byte
  | .ldi _ _ => opcLdi
  | .prn _ => opcPrn
  | .add _ _ => opcAdd
  | .sub _ _ => opcSub
  | .mul _ _ => opcMul
  | .push _ => opcPush
  | .pop _ => opcPop
  | .jmp _ => opcJmp
  | .call _ => opcCall
  | .ret => opcRet
  | .hlt => opcHlt

/-- The operand bytes of an instruction, `a` at pc+1 before `b` at pc+2 (30_encoding.md R53). -/
def Instr.operandBytes : Instr → List Byte
  | .ldi a b => [a, b]
  | .prn a => [a]
  | .add a b => [a, b]
  | .sub a b => [a, b]
  | .mul a b => [a, b]
  | .push a => [a]
  | .pop a => [a]
  | .jmp a => [a]
  | .call a => [a]
  | .ret => []
  | .hlt => []

/-- The bytes of an instruction in memory order (30_encoding.md R50). -/
def encode (i : Instr) : List Byte := i.opcode :: i.operandBytes

/-! ### Words as spec/opcode_table.json numbers them -/

/-- The three bytes at the lowest addresses of an instruction whose bits are `w`, of which only the low
`nbits` are given and the rest are 0; bit 0 is the least significant bit of the first byte. -/
def tableWordBytes (nbits w : Nat) : List Byte :=
  let v := w % 2 ^ nbits
  [BitVec.ofNat 8 v, BitVec.ofNat 8 (v / 2 ^ 8), BitVec.ofNat 8 (v / 2 ^ 16)]

/-- The instruction the decoder reads from a word of spec/opcode_table.json. -/
def decodeTableWord (nbits w : Nat) : Option Instr :=
  match decode (tableWordBytes nbits w) with
  | .ok (i, _) => some i
  | .error _ => none

/-! ### Assembly notation (30_encoding.md R61) -/

/-- The mnemonic of an instruction, as spec/opcode_table.json spells it. -/
def Instr.mnemonic : Instr → String
  | .ldi _ _ => "LDI"
  | .prn _ => "PRN"
  | .add _ _ => "ADD"
  | .sub _ _ => "SUB"
  | .mul _ _ => "MUL"
  | .push _ => "PUSH"
  | .pop _ => "POP"
  | .jmp _ => "JMP"
  | .call _ => "CALL"
  | .ret => "RET"
  | .hlt => "HLT"

/-- A register operand in assembly: `R0` .. `R7` (30_encoding.md R61), and `<r>` for a byte that names no
register, as 95_test_vectors.md P5 writes it. -/
def registerOperandText (r : Byte) : String :=
  if namesRegister r then "R" ++ toString r.toNat else "<" ++ toString r.toNat ++ ">"

/-- An instruction in the assembly notation of 30_encoding.md R61: mnemonic, then the operands separated
by a comma, registers as `R0` .. `R7`, immediates in decimal. -/
def Instr.toAssembly (i : Instr) : String :=
  match i with
  | .ldi a b => i.mnemonic ++ " " ++ registerOperandText a ++ "," ++ toString b.toNat
  | .add a b => i.mnemonic ++ " " ++ registerOperandText a ++ "," ++ registerOperandText b
  | .sub a b => i.mnemonic ++ " " ++ registerOperandText a ++ "," ++ registerOperandText b
  | .mul a b => i.mnemonic ++ " " ++ registerOperandText a ++ "," ++ registerOperandText b
  | .prn a => i.mnemonic ++ " " ++ registerOperandText a
  | .push a => i.mnemonic ++ " " ++ registerOperandText a
  | .pop a => i.mnemonic ++ " " ++ registerOperandText a
  | .jmp a => i.mnemonic ++ " " ++ registerOperandText a
  | .call a => i.mnemonic ++ " " ++ registerOperandText a
  | .ret => i.mnemonic
  | .hlt => i.mnemonic

end Sys2Proof
end

