-- ==== Sys2Proof/Machine/State.lean ====
section
/-! DEFINITION. The state of the machine, exactly the list of 10_state.md R10, as plain data; the fault
information the spec records; the reasons a step can have no next state; and the state after reset. -/

namespace Sys2Proof.Machine

/-- The context a fault records: the `info` tuples of 60_exceptions.md R130, R137. This is the spec's fault
taxonomy; a fault is ENTERED by a next state whose `run` holds one of these (R138, log entry 2). -/
inductive FaultInfo where
  /-- `UnsupportedOperation(pc, op)`: the opcode byte `op` fetched at `pc` is none of the eleven (R131). -/
  | unsupportedOperation (pc : Nat) (op : Byte)
  /-- `UninitializedMemoryAccess(pc, addr)`: the instruction at `pc` read `addr`, which was never written or
  is above 0xFF (R132). -/
  | uninitializedMemoryAccess (pc addr : Nat)
  /-- `OutOfBounds(pc, op, value)`: a register operand byte above 7, or CALL's return address above 0xFF
  (R133). -/
  | outOfBounds (pc : Nat) (op : Byte) (value : Nat)
  deriving DecidableEq, Repr

/-- The run state (10_state.md R20). -/
inductive RunState where
  /-- The loop is stepping. -/
  | running
  /-- HLT was fetched; terminal. -/
  | halted
  /-- A fault was raised; terminal, and distinct from `halted`. -/
  | faulted (info : FaultInfo)
  deriving DecidableEq, Repr

/-- Memory as the list of its VALID cells (10_state.md R22), addresses strictly rising. An address that is
not listed has `valid` = 0 and no data (log entry 5). -/
abbrev Memory := List Host.Cell

/-- The architectural state (10_state.md R10). -/
structure State where
  /-- `x[0]` .. `x[7]` (R11 to R15); entry 7 is the stack pointer (R12). -/
  regs : Vector Byte Config.numRegs
  /-- The program counter: an unsigned integer that does not wrap (R16, R18; log entry 3). -/
  pc : Nat
  /-- The 256 memory cells (R22). -/
  mem : Memory
  /-- The run state (R20). -/
  run : RunState
  /-- The redirect signal: the handler of this step set the pc (R21; log entry 6). -/
  redirect : Bool
  /-- The output stream, oldest value first (R23). -/
  out : List Byte
  deriving DecidableEq, Repr

/-- Why a step has NO next state. The spec's own three faults are not here: they have a next state (R138). -/
inductive Fault where
  /-- Raised by `step` alone, in a state whose run has ended by HLT: `Halted` has no step
  (40_execution_loop.md R78). Safe: the model stops where the spec gives no step. -/
  | haltedHasNoStep
  /-- Raised by `step` alone, in a state whose run has ended by the fault `info`: `Faulted` has no step
  (40_execution_loop.md R78). Safe: the model stops where the spec gives no step. -/
  | faultedHasNoStep (info : FaultInfo)
  deriving DecidableEq, Repr

/-- Why the model gives no meaning. -/
inductive Refusal where
  /-- Raised only by an arm of `exec` whose instruction has no meaning yet; no arm is such. Safe. -/
  | notModelled (mnemonic : String)
  /-- Raised by `load` alone, for an image of more than 256 bytes, before any step (20_memory.md R40,
  decision D15). Safe: the load is refused and no step is taken. -/
  | imageTooLong (length : Nat)
  deriving DecidableEq, Repr

/-- The state after reset, before an image is loaded (10_state.md R26, 70_reset_and_hazards.md R162): every
value is the spec's. -/
def State.reset : State where
  regs := #v[0, 0, 0, 0, 0, 0, 0, Config.spReset]
  pc := Config.pcReset
  mem := []
  run := .running
  redirect := false
  out := []

end Sys2Proof.Machine
end

