-- ==== Sys2Proof/Machine/Ops.lean ====
section
/-! DEFINITION. The named operations over memory, registers, the pc, the output and the stack
(10_state.md, 20_memory.md, 43_stack.md R110), and the ONE operation by which a fault is entered
(60_exceptions.md R138). There is no return from a fault (R139), so none stands beside it. -/

namespace Sys2Proof.Machine

/-! ### Memory (20_memory.md) -/

/-- The address exists: 0 .. `MEM_SIZE` - 1 (20_memory.md R30). -/
def addressExists (addr : Nat) : Bool := decide (addr < Config.memSize)

/-- The datum of the cell listed at `addr`, if one is. -/
def Memory.read : Memory → Nat → Option Byte
  | [], _ => none
  | c :: m, addr => if addr = c.1 then some c.2 else Memory.read m addr

/-- List `v` at `addr`, in place of what was listed there; rising addresses stay rising. -/
def Memory.write : Memory → Nat → Byte → Memory
  | [], addr, v => [(addr, v)]
  | c :: m, addr, v =>
    if addr < c.1 then (addr, v) :: c :: m
    else if addr = c.1 then (addr, v) :: m
    else c :: Memory.write m addr v

/-- The canonical form: addresses strictly rising, each of them existing. An unlisted address has no value,
so no entry can equal what an unlisted address reads as. -/
def Memory.wf : Memory → Bool
  | [] => true
  | [c] => addressExists c.1
  | c :: d :: m => addressExists c.1 && decide (c.1 < d.1) && Memory.wf (d :: m)

/-- `MemRead(addr, 1)` as a value: none exactly where the spec raises (20_memory.md R31). -/
def State.memRead (s : State) (addr : Nat) : Option Byte :=
  if addressExists addr then Memory.read s.mem addr else none

/-- `MemWrite(addr, 1, v)`: always succeeds and makes the cell valid (20_memory.md R32). The address is a
byte, so it always exists (R33). -/
def State.memWrite (s : State) (addr v : Byte) : State :=
  { s with mem := Memory.write s.mem addr.toNat v }

/-! ### Registers (10_state.md R13) -/

/-- `x[i]`. -/
def State.readReg (s : State) (i : Fin Config.numRegs) : Byte := s.regs[i]

/-- `x[i] <- v`. -/
def State.writeReg (s : State) (i : Fin Config.numRegs) (v : Byte) : State :=
  { s with regs := s.regs.set i v }

/-- `SP`, register 7 (10_state.md R12). -/
def State.sp (s : State) : Byte := s.readReg Config.spIndex

/-! ### Control state and output -/

/-- `pc <- target; redirect <- 1` (44_control_transfer.md R120): the target is a byte, used as it stands. -/
def State.redirectTo (s : State) (target : Byte) : State :=
  { s with pc := target.toNat, redirect := true }

/-- `redirect <- 0`, at the start of every step (10_state.md R21). -/
def State.clearRedirect (s : State) : State := { s with redirect := false }

/-- `run <- Halted` (40_execution_loop.md R72). -/
def State.halt (s : State) : State := { s with run := .halted }

/-- `Emit(v)`: append to the output (10_state.md R23). -/
def State.emit (s : State) (v : Byte) : State := { s with out := s.out ++ [v] }

/-- Fault entry (60_exceptions.md R138): `run` becomes `Faulted(kind, info)` and nothing else changes; the pc
keeps the address of the faulting instruction's opcode. -/
def State.raise (s : State) (info : FaultInfo) : State := { s with run := .faulted info }

/-- The pc update after a handler (40_execution_loop.md R76), `n` the operand count: a handler that halted
or faulted leaves the pc alone, one that redirected keeps the pc it set and the signal is consumed
(10_state.md R21: 0 at every step boundary), any other advances by 1 + n, without wrap. -/
def State.pcUpdate (s : State) (n : Nat) : State :=
  match s.run with
  | .running => if s.redirect then { s with redirect := false } else { s with pc := s.pc + 1 + n }
  | .halted => s
  | .faulted _ => s

/-! ### The stack (43_stack.md R110): downward, pre-decrement push, post-increment pop, 8-bit wrap -/

/-- The address a push from `s` stores at: `(SP - 1) mod 256` (20_memory.md R36; the wrap is decision D10). -/
def State.pushAddress (s : State) : Byte := s.sp - 1

/-- `x[7] <- (x[7] - 1) mod 256`. -/
def State.decrementSp (s : State) : State := s.writeReg Config.spIndex s.pushAddress

/-- `x[7] <- (x[7] + 1) mod 256`. -/
def State.incrementSp (s : State) : State := s.writeReg Config.spIndex (s.sp + 1)

/-- Push `v`: decrement, then store at the new stack pointer. -/
def State.pushByte (s : State) (v : Byte) : State := s.decrementSp.memWrite s.pushAddress v

end Sys2Proof.Machine
end

