-- ==== Sys2Proof/Machine/Operands.lean ====
section
/-! DEFINITION. The operand forms (30_encoding.md R54): a register index, checked before the handler
(40_execution_loop.md R75), an immediate, which is the byte itself, and the byte at the stack pointer,
whose read can fault (20_memory.md R31). Each takes the rest of the handler as its last argument. -/

namespace Sys2Proof.Machine

/-- The register a byte names: the whole byte is compared with 7, never masked (10_state.md R14). -/
def registerOf (r : Byte) : Option (Fin Config.numRegs) :=
  if h : r.toNat < Config.numRegs then some ⟨r.toNat, h⟩ else none

/-- The register-index check (40_execution_loop.md R75): an operand above 7 raises `OutOfBounds(pc, op, r)`
before the handler changes any state (decisions D5, D8). -/
def withRegister (op r : Byte) (s : State) (handler : Fin Config.numRegs → Host.Outcome State Fault Refusal) :
    Host.Outcome State Fault Refusal :=
  match registerOf r with
  | some i => handler i
  | none => .next (s.raise (.outOfBounds s.pc op r.toNat))

/-- `MemRead(addr, 1)` inside a handler (20_memory.md R31): the byte, or
`UninitializedMemoryAccess(pc, addr)`. -/
def withMemByte (addr : Nat) (s : State) (handler : Byte → Host.Outcome State Fault Refusal) :
    Host.Outcome State Fault Refusal :=
  match s.memRead addr with
  | some v => handler v
  | none => .next (s.raise (.uninitializedMemoryAccess s.pc addr))

end Sys2Proof.Machine
end

