-- ==== Sys2Proof/Machine/Flags.lean ====
section
/-! DEFINITION. What an arithmetic instruction computes beside the exact result: nothing. There is no flags
register (10_state.md R19); the exact integer result is reduced `mod 256` and carry, borrow and overflow are
discarded (42_arithmetic.md R100). The reduction, and the one form ADD, SUB and MUL share, stand here. -/

namespace Sys2Proof.Machine

/-- The integer `mod 256`, always in 0 .. 255, also for a negative one (00_scope.md R6, 42_arithmetic.md R100;
the width is decision D1). -/
def wrapToByte (exact : Int) : Byte := BitVec.ofInt 8 exact

/-- `x[a] <- f(x[a], x[b]) mod 256` for the two unsigned operand values (42_arithmetic.md R100): both indices
are checked, `a` first; both operands are read before the destination is written. -/
def arithmetic (op : Byte) (f : Int → Int → Int) (a b : Byte) (s : State) : Host.Outcome State Fault Refusal :=
  withRegister op a s fun i =>
    withRegister op b s fun j =>
      .next (s.writeReg i (wrapToByte (f (s.readReg i).toNat (s.readReg j).toNat)))

end Sys2Proof.Machine
end

