-- ==== Sys2Proof/Machine/Arithmetic.lean ====
section
/-! DEFINITION. ADD, SUB and MUL (42_arithmetic.md). -/

namespace Sys2Proof.Machine

/-- ADD a,b: `x[a] <- (x[a] + x[b]) mod 256` (42_arithmetic.md R101). -/
def execAdd (a b : Byte) (s : State) : Host.Outcome State Fault Refusal :=
  arithmetic opcAdd (fun x y => x + y) a b s

/-- SUB a,b: `x[a] <- (x[a] - x[b]) mod 256` (42_arithmetic.md R102). -/
def execSub (a b : Byte) (s : State) : Host.Outcome State Fault Refusal :=
  arithmetic opcSub (fun x y => x - y) a b s

/-- MUL a,b: `x[a] <- (x[a] * x[b]) mod 256` (42_arithmetic.md R103). -/
def execMul (a b : Byte) (s : State) : Host.Outcome State Fault Refusal :=
  arithmetic opcMul (fun x y => x * y) a b s

end Sys2Proof.Machine
end

