-- ==== Sys2Proof/Machine/ControlTransfer.lean ====
section
/-! DEFINITION. JMP, CALL and RET (44_control_transfer.md) and HLT (40_execution_loop.md R72). -/

namespace Sys2Proof.Machine

/-- JMP a: `pc <- x[a]; redirect <- 1` (44_control_transfer.md R121). -/
def execJmp (a : Byte) (s : State) : Host.Outcome State Fault Refusal :=
  withRegister opcJmp a s fun i => .next (s.redirectTo (s.readReg i))

/-- CALL's return address, `pc + 1 + count(OPC_CALL)` = `pc + 2` (44_control_transfer.md R122). -/
def State.returnAddress (s : State) : Nat := s.pc + 1 + operandCount opcCall

/-- CALL a (44_control_transfer.md R122): a return address that fits no byte raises
`OutOfBounds(pc, 0x50, ret)` before the stack pointer moves (decision D6); else push it, then
`pc <- x[a]; redirect <- 1`, `x[a]` read after the push (decision D11). -/
def execCall (a : Byte) (s : State) : Host.Outcome State Fault Refusal :=
  withRegister opcCall a s fun i =>
    if s.returnAddress > 0xFF then
      .next (s.raise (.outOfBounds s.pc opcCall s.returnAddress))
    else
      let pushed := s.pushByte (BitVec.ofNat 8 s.returnAddress)
      .next (pushed.redirectTo (pushed.readReg i))

/-- RET: `v <- MemRead(x[7], 1); pc <- v; x[7] <- (x[7] + 1) mod 256; redirect <- 1`
(44_control_transfer.md R123). -/
def execRet (s : State) : Host.Outcome State Fault Refusal :=
  withMemByte s.sp.toNat s fun v => .next (s.redirectTo v).incrementSp

/-- HLT: `run <- Halted`, and nothing else; the pc stays at the HLT byte (40_execution_loop.md R72,
decision D19). -/
def execHlt (s : State) : Host.Outcome State Fault Refusal := .next s.halt

end Sys2Proof.Machine
end

