-- ==== Sys2Proof/Machine/DataMovement.lean ====
section
/-! DEFINITION. LDI and PRN (41_data_movement.md). A meaning is the index check and the handler
(40_execution_loop.md R75); fetching before it and the pc update after it are the loop's. -/

namespace Sys2Proof.Machine

/-- LDI a,b: `x[a] <- b` (41_data_movement.md R90); `b` is an immediate and is not checked. -/
def execLdi (a b : Byte) (s : State) : Host.Outcome State Fault Refusal :=
  withRegister opcLdi a s fun i => .next (s.writeReg i b)

/-- PRN a: `Emit(x[a])` (41_data_movement.md R91). -/
def execPrn (a : Byte) (s : State) : Host.Outcome State Fault Refusal :=
  withRegister opcPrn a s fun i => .next (s.emit (s.readReg i))

end Sys2Proof.Machine
end

