-- ==== Sys2Proof/Machine/Stack.lean ====
section
/-! DEFINITION. PUSH and POP (43_stack.md). The statements run in the order written there, each seeing the
writes of the one before it, which matters when the operand is register 7 (decision D11, log entry 10). -/

namespace Sys2Proof.Machine

/-- PUSH a: `x[7] <- (x[7] - 1) mod 256; MemWrite(x[7], 1, x[a])`, `x[a]` read after the decrement
(43_stack.md R111). -/
def execPush (a : Byte) (s : State) : Host.Outcome State Fault Refusal :=
  withRegister opcPush a s fun i => .next (s.pushByte (s.decrementSp.readReg i))

/-- POP a: `v <- MemRead(x[7], 1); x[a] <- v; x[7] <- (x[7] + 1) mod 256` (43_stack.md R112). -/
def execPop (a : Byte) (s : State) : Host.Outcome State Fault Refusal :=
  withRegister opcPop a s fun i =>
    withMemByte s.sp.toNat s fun v => .next (s.writeReg i v).incrementSp

end Sys2Proof.Machine
end

