-- ==== Sys2Proof/Machine/Fetch.lean ====
section
/-! DEFINITION. Fetching and decoding the instruction at the pc, in the order of the loop's checks
(40_execution_loop.md R70 to R74, R77), and one pass of the loop in the run state `Running`. -/

namespace Sys2Proof.Machine

/-- Fetch one byte of the instruction at the pc (40_execution_loop.md R71, R73). -/
def State.fetchByte (s : State) (addr : Nat) : Except FaultInfo Byte :=
  match s.memRead addr with
  | some v => .ok v
  | none => .error (.uninitializedMemoryAccess s.pc addr)

/-- Fetch `n` operand bytes from `addr` upward, the lowest address first; the first read that fails ends the
step (40_execution_loop.md R73). Addresses are not reduced modulo 256. -/
def State.fetchOperands (s : State) (addr : Nat) : Nat → Except FaultInfo (List Byte)
  | 0 => .ok []
  | n + 1 =>
    match s.fetchByte addr with
    | .error info => .error info
    | .ok v =>
      match s.fetchOperands (addr + 1) n with
      | .error info => .error info
      | .ok vs => .ok (v :: vs)

/-- The instruction at the pc, or the fault its fetch raises: opcode fetch, halt check, operand fetch,
dispatch lookup (40_execution_loop.md R77 steps 1 to 4; decision D7). -/
def State.fetchInstr (s : State) : Except FaultInfo Instr :=
  match s.fetchByte s.pc with
  | .error info => .error info
  | .ok op =>
    if op = opcHlt then .ok .hlt
    else
      match s.fetchOperands (s.pc + 1) (operandCount op) with
      | .error info => .error info
      | .ok operands =>
        match decode (op :: operands) with
        | .ok (i, _) => .ok i
        | .error _ => .error (.unsupportedOperation s.pc op)

/-- One pass of the loop in the run state `Running` (40_execution_loop.md R70). -/
def loopPass (s : State) : Host.Outcome State Fault Refusal :=
  match s.clearRedirect.fetchInstr with
  | .error info => .next (s.clearRedirect.raise info)
  | .ok i =>
    match exec i s.clearRedirect with
    | .next t => .next (t.pcUpdate (operandCount i.opcode))
    | .fault r => .fault r
    | .refused r => .refused r

/-- Store bytes at `addr` upward, in the cells that exist. -/
def State.placeBytes (s : State) (addr : Nat) : List Byte → State
  | [] => s
  | v :: vs =>
    let placed := if addressExists addr then { s with mem := Memory.write s.mem addr v } else s
    placed.placeBytes (addr + 1) vs

end Sys2Proof.Machine
end

