-- ==== Sys2Proof/Machine/Step.lean ====
section
/-! DEFINITION. One step of the machine (40_execution_loop.md R70), and the state in which its next step
runs a given word. -/

namespace Sys2Proof.Machine

/-- One step: a pass of the loop while `Running`; `Halted` and `Faulted` have no step
(40_execution_loop.md R78). -/
def step (s : State) : Host.Outcome State Fault Refusal :=
  match s.run with
  | .running => loopPass s
  | .halted => .fault .haltedHasNoStep
  | .faulted info => .fault (.faultedHasNoStep info)

/-- The state `s` with the instruction whose bits are `w` (numbered as spec/opcode_table.json numbers them,
the bits above `nbits` zero) stored at the pc, three bytes, in the cells that exist. It stands for a load of
a program from outside the machine (log entry 7) and changes nothing else. -/
def State.withFetchWord (s : State) (nbits w : Nat) : State :=
  s.placeBytes s.pc (tableWordBytes nbits w)

end Sys2Proof.Machine
end

