-- ==== Sys2Proof/Machine/Interface.lean ====
section
/-! DEFINITION. The host's interfaces (70_reset_and_hazards.md R160): LOAD, the text of OUT, what the host
observes, and a bounded run. RESET is `State.reset`. -/

namespace Sys2Proof.Machine

/-- `load(image)`: write the bytes at `LOAD_BASE`, `LOAD_BASE` + 1, ..., and nothing else (20_memory.md R39).
An image longer than `MEM_SIZE` is refused before any step (R40, decision D15). -/
def load (image : List Byte) (s : State) : Host.Outcome State Fault Refusal :=
  if Config.memSize < image.length then .refused (.imageTooLong image.length)
  else .next (s.placeBytes Config.loadBase image)

/-- The start of a run: RESET, then LOAD (70_reset_and_hazards.md R161). A second run is a new boot
(R164). -/
def boot (image : List Byte) : Host.Outcome State Fault Refusal := load image State.reset

/-- The character code of a decimal digit. -/
def digitCode (d : Nat) : Byte := BitVec.ofNat 8 (0x30 + d)

/-- One emitted value as text: its decimal numeral, unsigned, without leading zeros, then one line feed
(41_data_movement.md R92, decision D9). -/
def renderValue (v : Byte) : List Byte :=
  let n := v.toNat
  (if n < 10 then [digitCode n]
   else if n < 100 then [digitCode (n / 10), digitCode (n % 10)]
   else [digitCode (n / 100), digitCode (n / 10 % 10), digitCode (n % 10)]) ++ [0x0A]

/-- The text the host writes to the standard output stream for OUT (41_data_movement.md R92). -/
def renderOut : List Byte → List Byte
  | [] => []
  | v :: vs => renderValue v ++ renderOut vs

/-- What the host can observe of a state: OUT and STATUS (70_reset_and_hazards.md R160, R165). -/
structure Observation where
  /-- The values emitted so far. -/
  out : List Byte
  /-- `Running`, `Halted` or `Faulted(kind, info)`. -/
  status : RunState
  deriving DecidableEq, Repr

/-- The host's view of a state. -/
def State.observe (s : State) : Observation := { out := s.out, status := s.run }

/-- At most `n` steps, ending early where there is no step (40_execution_loop.md R78). -/
def runFor : Nat → State → State
  | 0, s => s
  | n + 1, s =>
    match step s with
    | .next t => runFor n t
    | .fault _ => s
    | .refused _ => s

end Sys2Proof.Machine
end

