-- ==== Sys2Proof/Safety.lean ====
section
/-! DEFINITION. The terms claims are stated in: safe and well ended runs, the invariant of the machine, frames
(what a state change leaves alone), the bytes at an address, and which registers an instruction reads and
writes (10_state.md R15). -/

namespace Sys2Proof.Machine

/-! ### Runs -/

/-- No fault has been raised (10_state.md R20). -/
def State.safe (s : State) : Bool :=
  match s.run with
  | .faulted _ => false
  | .running => true
  | .halted => true

/-- The run has ended well: only `Halted` is a successful end (70_reset_and_hazards.md R165). -/
def State.endedWell (s : State) : Bool := decide (s.run = .halted)

/-- What holds at every step boundary of every run. -/
structure State.Inv (s : State) : Prop where
  /-- Memory is in its canonical form: rising addresses, all of them existing (20_memory.md R30). -/
  memCanonical : Memory.wf s.mem = true
  /-- The redirect signal is 0 between steps (10_state.md R21). -/
  redirectClear : s.redirect = false
  /-- The pc stays within 0 .. 0x102 (10_state.md R16, R18). -/
  pcInRange : s.pc ≤ 0x102

/-! ### Frames -/

/-- Every register but those listed keeps its value. -/
def SameRegsExcept (changed : List (Fin Config.numRegs)) (s t : State) : Prop :=
  ∀ j, j ∉ changed → t.readReg j = s.readReg j

/-- Every byte of memory but those at the listed addresses reads as before (also as unreadable as before). -/
def SameMemExcept (changed : List Nat) (s t : State) : Prop :=
  ∀ addr, addr ∉ changed → t.memRead addr = s.memRead addr

/-- The pc, the run state and the redirect signal are as before. -/
def SameControl (s t : State) : Prop := t.pc = s.pc ∧ t.run = s.run ∧ t.redirect = s.redirect

/-- The output stream is as before. -/
def SameOut (s t : State) : Prop := t.out = s.out

/-! ### Steps -/

/-- Memory holds these bytes from `addr` upward, every one of them readable. -/
def bytesAt (s : State) (addr : Nat) : List Byte → Bool
  | [] => true
  | v :: vs => decide (s.memRead addr = some v) && bytesAt s (addr + 1) vs

/-- The operand bytes that the opcode `op` at the pc asks for are readable (40_execution_loop.md R73). -/
def operandsReadable (s : State) (op : Byte) : Bool :=
  (operandCount op == 0 || (s.memRead (s.pc + 1)).isSome) && (operandCount op != 2 || (s.memRead (s.pc + 2)).isSome)

/-- The step faults with this information and changes nothing else (60_exceptions.md R138). -/
def FaultsWith (s : State) (info : FaultInfo) : Prop :=
  step s = .next { s with redirect := false, run := .faulted info }

/-- The pc a fault records: the address of the faulting instruction's opcode (60_exceptions.md R130). -/
def FaultInfo.pc : FaultInfo → Nat
  | .unsupportedOperation p _ => p
  | .uninitializedMemoryAccess p _ => p
  | .outOfBounds p _ _ => p

/-- The bytes a list of writes leaves in memory: the value of the last one to the address. -/
def lastWritten (addr : Nat) : List (Byte × Byte) → Option Byte
  | [] => none
  | w :: ws =>
    match lastWritten addr ws with
    | some v => some v
    | none => if w.1.toNat = addr then some w.2 else none

/-- Perform the writes in order. -/
def State.writeAll (s : State) : List (Byte × Byte) → State
  | [] => s
  | w :: ws => (s.memWrite w.1 w.2).writeAll ws

/-! ### Registers read and written (the table of 10_state.md R15) -/

/-- The register a byte names, as a list. -/
def namedRegister (r : Byte) : List (Fin Config.numRegs) :=
  if h : r.toNat < Config.numRegs then [⟨r.toNat, h⟩] else []

/-- The registers an instruction reads. -/
def registersRead : Instr → List (Fin Config.numRegs)
  | .ldi _ _ => []
  | .prn a => namedRegister a
  | .add a b => namedRegister a ++ namedRegister b
  | .sub a b => namedRegister a ++ namedRegister b
  | .mul a b => namedRegister a ++ namedRegister b
  | .push a => 7 :: namedRegister a
  | .pop _ => [7]
  | .jmp a => namedRegister a
  | .call a => 7 :: namedRegister a
  | .ret => [7]
  | .hlt => []

/-- The registers an instruction writes. -/
def registersWritten : Instr → List (Fin Config.numRegs)
  | .ldi a _ => namedRegister a
  | .prn _ => []
  | .add a _ => namedRegister a
  | .sub a _ => namedRegister a
  | .mul a _ => namedRegister a
  | .push _ => [7]
  | .pop a => 7 :: namedRegister a
  | .jmp _ => []
  | .call _ => [7]
  | .ret => [7]
  | .hlt => []

/-- The control transfers: the handlers that set the redirect signal (10_state.md R21). -/
def isTransfer : Instr → Bool
  | .jmp _ => true
  | .call _ => true
  | .ret => true
  | .ldi _ _ => false
  | .prn _ => false
  | .add _ _ => false
  | .sub _ _ => false
  | .mul _ _ => false
  | .push _ => false
  | .pop _ => false
  | .hlt => false

end Sys2Proof.Machine
end

