-- ==== Sys2Proof/Certificates/Slice0/Obligations.lean ====
section
/-! DEFINITION. The statements for the provers. Each docstring says which statement of the spec it formalises;
where one rests on a decision the spec marks as its own, it names the decision and its log entry. -/

open Sys2Proof Sys2Proof.Machine

/-! ### Reset and load -/

/-- 70_reset_and_hazards.md R162: the reset values, complete. -/
def Obligations.ResetStateIsTheSpecs : Prop :=
  State.reset.pc = 0 ∧ (∀ i : Fin 8, i ≠ 7 → State.reset.readReg i = 0) ∧ State.reset.readReg 7 = 0xF4 ∧
  State.reset.run = .running ∧ State.reset.redirect = false ∧ (∀ addr, State.reset.memRead addr = none) ∧
  State.reset.out = []

/-- 20_memory.md R39: `load` writes the bytes at consecutive addresses starting at 0 and nothing else, on the
state after reset and before the first step. -/
def Obligations.LoadWritesTheImageAndNothingElse : Prop :=
  (∀ image : List Byte, boot image = load image State.reset) ∧
  ∀ (image : List Byte) (s : State), image.length ≤ 256 →
    ∃ t, load image s = .next t ∧
      (∀ k (h : k < image.length), t.memRead k = some image[k]) ∧
      (∀ addr, image.length ≤ addr → t.memRead addr = s.memRead addr) ∧
      SameRegsExcept [] s t ∧ SameControl s t ∧ SameOut s t

/-- 20_memory.md section 5: an image longer than 256 bytes is refused before any step (the spec's decision D15, log
entry 8), and an empty image is legal and makes the first step fault with `UninitializedMemoryAccess(0, 0)`
(marked derived in the spec). -/
def Obligations.TooLongImageRefusedEmptyImageFaults : Prop :=
  (∀ image : List Byte, 256 < image.length → boot image = .refused (.imageTooLong image.length)) ∧
  (∃ t, boot [] = .next t ∧ FaultsWith t (.uninitializedMemoryAccess 0 0))

/-! ### Registers and memory -/

/-- 10_state.md R13: a register returns the value last written, or its reset value; a read never faults and a
write always succeeds (the read is a value and the write a state, for every state and register), and no register
aliases another. -/
def Obligations.RegisterReadsLastWritten : Prop :=
  (∀ (s : State) (i j : Fin 8) (v : Byte),
    (s.writeReg i v).readReg j = if j = i then v else s.readReg j) ∧
  (∀ i : Fin 8, State.reset.readReg i = if i = 7 then 0xF4 else 0)

/-- 20_memory.md R31: a read inside a handler raises `UninitializedMemoryAccess(pc, addr)` when the address is
above 0xFF or its cell is not valid, and otherwise hands on the datum, with the state it was given. -/
def Obligations.MemReadRaisesUnlessValid : Prop :=
  ∀ (s : State) (addr : Nat) (handler : Byte → Host.Outcome State Fault Refusal),
    (addr > 0xFF ∨ s.memRead addr = none →
      withMemByte addr s handler = .next { s with run := .faulted (.uninitializedMemoryAccess s.pc addr) }) ∧
    (∀ v, s.memRead addr = some v → addr ≤ 0xFF ∧ withMemByte addr s handler = handler v)

/-- 20_memory.md R32: a write never faults, stores the byte and makes the cell valid; every other cell is as
before. -/
def Obligations.MemWriteStoresAndMakesValid : Prop :=
  ∀ (s : State) (a v : Byte) (addr : Nat),
    (s.memWrite a v).memRead addr = if addr = a.toNat then some v else s.memRead addr

/-- 10_state.md section 5 (memory cells) and 20_memory.md section 6: after reset and any writes, a cell holds the
byte of the most recent write to it, and is not valid if there was none (strict memory is decision D12, log entry
5). -/
def Obligations.CellHoldsTheMostRecentWrite : Prop :=
  ∀ (writes : List (Byte × Byte)) (addr : Nat),
    (State.reset.writeAll writes).memRead addr = lastWritten addr writes

/-- 10_state.md section 5 (memory cells): no step clears a `valid` bit (the bit is decision D12, log entry 5). -/
def Obligations.ValidBitsAreNeverCleared : Prop :=
  ∀ s t : State, step s = .next t → ∀ addr, s.memRead addr ≠ none → t.memRead addr ≠ none

/-- 20_memory.md sections 3 and 6: PUSH and CALL are the only instructions that store, and they store at
`(SP - 1) mod 256` (the wrap is decision D10, log entry 10). -/
def Obligations.OnlyPushAndCallStore : Prop :=
  ∀ s t : State, step s = .next t → ∀ addr, t.memRead addr ≠ s.memRead addr →
    addr = s.pushAddress.toNat ∧ addr = (s.sp.toNat + 255) % 256 ∧
      ∃ a, bytesAt s s.pc (encode (.push a)) = true ∨ bytesAt s s.pc (encode (.call a)) = true

/-- 10_state.md section 2 (the table of registers): no instruction writes a register but those listed, and none
reads one: with another value in a register that is not read, the instruction does the same up to that register.
-/
def Obligations.OnlyListedRegistersReadAndWritten : Prop :=
  (∀ (i : Instr) (s t : State), exec i s = .next t → SameRegsExcept (registersWritten i) s t) ∧
  (∀ (i : Instr) (s t : State) (r : Fin 8) (v : Byte), r ∉ registersRead i → exec i s = .next t →
    ∃ t', exec i (s.writeReg r v) = .next t' ∧ ∀ w, t'.writeReg r w = t.writeReg r w)

/-! ### Encoding -/

/-- Decoding and encoding are inverse, for every instruction and every operand byte, whatever follows: bytes decode to
an instruction and a rest exactly when they are its encoding followed by that rest; so decoding an encoding gives the
instruction back, and each instruction has one encoding (30_encoding.md sections 1, 3 and 4; the opcode values are
decision D4, log entry 1). -/
def Obligations.DecodeIsTheInverseOfEncode : Prop :=
  (∀ (i : Instr) (rest : List Byte), decode (encode i ++ rest) = .ok (i, rest)) ∧
  (∀ (bytes : List Byte) (i : Instr) (rest : List Byte), decode bytes = .ok (i, rest) → bytes = encode i ++ rest)

/-- Words written out from the encodings of 30_encoding.md sections 3 and 4 decode to the instructions they stand
for (the opcode values are decision D4, log entry 1). -/
def Obligations.WordsOfTheSpecDecode : Prop :=
  decodeTableWord 24 0b000010000000000010000010 = some (.ldi 0 8) ∧
  decodeTableWord 16 0b0000001101000111 = some (.prn 3) ∧
  decodeTableWord 24 0b000001100000010110100010 = some (.mul 5 6) ∧
  decodeTableWord 16 0b0000011101000101 = some (.push 7) ∧
  decodeTableWord 16 0b0000000101010000 = some (.call 1) ∧
  decodeTableWord 8 0b00010001 = some .ret ∧
  decodeTableWord 8 0b00000001 = some .hlt ∧
  decodeTableWord 8 0b11111111 = none

/-- 30_encoding.md R55: what the source fixes about opcode values: bits 7:6 are the operand count of the named
operations, the eleven values are pairwise different, and 0xFF is not among them. -/
def Obligations.OpcodesMeetTheSourceConstraints : Prop :=
  (∀ op ∈ [opcLdi, opcAdd, opcSub, opcMul], op >>> 6 = 0b10) ∧
  (∀ op ∈ [opcPrn, opcPush, opcPop, opcJmp, opcCall], op >>> 6 = 0b01) ∧
  opcRet >>> 6 = 0b00 ∧ assignedOpcodes.length = 11 ∧ assignedOpcodes.Nodup ∧ 0xFF ∉ assignedOpcodes

/-- 30_encoding.md section 2: `count(op)` is bits 7:6 when they are 1 or 2, and 0 otherwise (0 for 0b11 is decision
D18, log entry 13). -/
def Obligations.OperandCountIsTheTopTwoBits : Prop :=
  ∀ op : Byte, operandCount op = if op.toNat / 64 = 1 then 1 else if op.toNat / 64 = 2 then 2 else 0

/-- 30_encoding.md sections 4 and 5: with the operand bytes present, exactly the eleven bytes decode, and each of
the 245 others is rejected as unsupported (decision D4, log entry 1). -/
def Obligations.ExactlyElevenOpcodesDecode : Prop :=
  ∀ (op : Byte) (operands rest : List Byte), operands.length = operandCount op →
    (op ∈ ([0x82, 0x47, 0xA0, 0xA1, 0xA2, 0x45, 0x46, 0x54, 0x50, 0x11, 0x01] : List Byte) →
      ∃ i, i.opcode = op ∧ i.operandBytes = operands ∧ decode (op :: operands ++ rest) = .ok (i, rest)) ∧
    (op ∉ ([0x82, 0x47, 0xA0, 0xA1, 0xA2, 0x45, 0x46, 0x54, 0x50, 0x11, 0x01] : List Byte) →
      decode (op :: operands ++ rest) = .error (.unsupportedOpcode op))

/-! ### The step -/

/-- 40_execution_loop.md section 1: when the bytes at the pc decode to an instruction, the step is that
instruction's meaning in the state with the redirect signal cleared, then the pc update: nothing more after a halt
or a fault, the signal consumed after a redirect, and an advance by 1 + count otherwise (that the pc update sets
the signal back to 0 is DEDUCED, 10_state.md section 5, decision D13, log entry 6; that HLT is an arm of exec is
the model's form, log entry 9). -/
def Obligations.StepRunsTheDecodedInstruction : Prop :=
  ∀ (s : State) (bytes rest : List Byte) (i : Instr), s.run = .running → bytesAt s s.pc bytes = true →
    decode bytes = .ok (i, rest) →
    ∃ u, exec i { s with redirect := false } = .next u ∧
      (u.run ≠ .running → step s = .next u) ∧
      (u.run = .running → u.redirect = true → step s = .next { u with redirect := false }) ∧
      (u.run = .running → u.redirect = false → step s = .next { u with pc := u.pc + 1 + operandCount i.opcode })

/-- 40_execution_loop.md section 4: after a handler that ends without a fault and without halting, the pc stays as
the handler wrote it when the handler redirected (JMP, CALL, RET, and no other), and otherwise advances by exactly
1 + count from the instruction's own address, without reduction modulo 256; never both (that the signal is 0 after
the step is DEDUCED, 10_state.md section 5, decision D13, log entry 6; the pc without wrap is decision D3, log
entry 3). -/
def Obligations.PcIsSetOrAdvancedNeverBoth : Prop :=
  ∀ (s u : State) (i : Instr), s.run = .running → bytesAt s s.pc (encode i) = true →
    exec i { s with redirect := false } = .next u → u.run = .running →
    (u.redirect = true ↔ isTransfer i = true) ∧
    ∃ t, step s = .next t ∧ t.redirect = false ∧
      (isTransfer i = true → t.pc = u.pc) ∧
      (isTransfer i = false → u.pc = s.pc ∧ t.pc = s.pc + 1 + operandCount i.opcode)

/-- The table of 10_state.md section 3 in full: the pc after every step (HLT's row is decision D19, the fault's row D8,
CALL's "read after the push" D11, log entries 9, 2 and 10). -/
def Obligations.PcAfterEveryStep : Prop :=
  ∀ (s t : State), step s = .next t →
    (t.run ≠ .running → t.pc = s.pc) ∧
    (t.run = .running → ∃ i, bytesAt s s.pc (encode i) = true ∧
      match i with
      | .ldi _ _ => t.pc = s.pc + 3
      | .add _ _ => t.pc = s.pc + 3
      | .sub _ _ => t.pc = s.pc + 3
      | .mul _ _ => t.pc = s.pc + 3
      | .prn _ => t.pc = s.pc + 2
      | .push _ => t.pc = s.pc + 2
      | .pop _ => t.pc = s.pc + 2
      | .jmp a => ∃ r : Fin 8, a.toNat = r.val ∧ t.pc = (s.readReg r).toNat
      | .call a => ∃ r : Fin 8, a.toNat = r.val ∧ t.pc = (t.readReg r).toNat
      | .ret => ∃ v, s.memRead s.sp.toNat = some v ∧ t.pc = v.toNat
      | .hlt => False)

/-- No step that goes on leaves the pc above 0x100: sharper than the spec's 0x102, since every operand byte was
fetched (DEDUCED, log entry 3). -/
def Obligations.PcNeverPassesOneBeyondMemory : Prop :=
  ∀ s t : State, step s = .next t → t.run = .running → t.pc ≤ 0x100

/-- 40_execution_loop.md section 2 (HLT): a step halts exactly when the byte at the pc is 0x01, whatever the cells
after it hold, and then nothing but the run state changes; the pc stays at the HLT byte (decision D19, log entry
9; the opcode value is D4, log entry 1). -/
def Obligations.HaltsExactlyOnTheHltByte : Prop :=
  (∀ s t : State, step s = .next t → (t.run = .halted ↔ s.memRead s.pc = some 0x01)) ∧
  (∀ s : State, s.run = .running → s.memRead s.pc = some 0x01 →
    step s = .next { s with redirect := false, run := .halted })

/-- 40_execution_loop.md R78: a `Running` state has a step and `Halted` and `Faulted` have none, so a run ends
`Halted`, ends `Faulted`, or never ends; and an ended run stays as it is. -/
def Obligations.RunsHaltFaultOrNeverEnd : Prop :=
  (∀ s : State, s.run = .running → ∃ t, step s = .next t) ∧
  (∀ s : State, s.run = .halted → step s = .fault .haltedHasNoStep) ∧
  (∀ (s : State) (info : FaultInfo), s.run = .faulted info → step s = .fault (.faultedHasNoStep info)) ∧
  (∀ s : State, (∃ n, (runFor n s).run = .halted ∧ ∀ m, n ≤ m → runFor m s = runFor n s) ∨
    (∃ n info, (runFor n s).run = .faulted info ∧ ∀ m, n ≤ m → runFor m s = runFor n s) ∨
    (∀ n, (runFor n s).run = .running))

/-- Every meaning answers a next state, in every state and for every operand: nothing is refused and nothing
stops the machine inside an instruction (60_exceptions.md section 2: a fault is entered by a state change, log
entry 2). -/
def Obligations.EveryMeaningHasANextState : Prop :=
  ∀ (i : Instr) (s : State), ∃ t, exec i s = .next t

/-! ### Faults -/

/-- 40_execution_loop.md R71: the opcode fetch faults when the pc is above 0xFF or its cell was never written. -/
def Obligations.OpcodeFetchFaults : Prop :=
  ∀ s : State, s.run = .running → (s.pc > 0xFF ∨ s.memRead s.pc = none) →
    FaultsWith s (.uninitializedMemoryAccess s.pc s.pc)

/-- 40_execution_loop.md R73: operands are fetched generically, for every opcode byte (assigned or not) that is not
HLT's, as many as bits 7:6 say, pc+1 first; the first read that fails ends the step; the addresses are not reduced
modulo 256; and where the bytes the count asks for are readable (none for a count of 0) the fetch raises no such
fault (the only other one is POP's and RET's, at the stack pointer). -/
def Obligations.OperandFetchFaults : Prop :=
  ∀ (s : State) (op : Byte), s.run = .running → s.memRead s.pc = some op → op ≠ opcHlt →
    (1 ≤ operandCount op → s.memRead (s.pc + 1) = none →
      FaultsWith s (.uninitializedMemoryAccess s.pc (s.pc + 1))) ∧
    (operandCount op = 2 → s.memRead (s.pc + 1) ≠ none → s.memRead (s.pc + 2) = none →
      FaultsWith s (.uninitializedMemoryAccess s.pc (s.pc + 2))) ∧
    (1 ≤ operandCount op → s.pc = 0xFF → FaultsWith s (.uninitializedMemoryAccess 0xFF 0x100)) ∧
    (operandsReadable s op = true → ∀ addr, s.sp.toNat ≠ addr →
      ¬ FaultsWith s (.uninitializedMemoryAccess s.pc addr))

/-- 30_encoding.md section 5 and 40_execution_loop.md section 3: an opcode byte that is none of the eleven, its
operand bytes readable, faults with `UnsupportedOperation(pc, op)` (decisions D4 and D7, log entries 1 and 11). -/
def Obligations.UnassignedOpcodeFaults : Prop :=
  ∀ (s : State) (op : Byte), s.run = .running → s.memRead s.pc = some op →
    op ∉ ([0x82, 0x47, 0xA0, 0xA1, 0xA2, 0x45, 0x46, 0x54, 0x50, 0x11, 0x01] : List Byte) →
    operandsReadable s op = true → FaultsWith s (.unsupportedOperation s.pc op)

/-- 40_execution_loop.md section 3 (the register-index check): a register operand above 7 raises
`OutOfBounds(pc, op, operand)`, `a` before `b`, and the instruction has no other effect (decisions D5 and D8, log
entries 2 and 11); on the whole byte. -/
def Obligations.RegisterIndexAboveSevenFaults : Prop :=
  ∀ (s : State) (a b : Byte),
    (7 < a.toNat →
      exec (.ldi a b) s = .next { s with run := .faulted (.outOfBounds s.pc 0x82 a.toNat) } ∧
      exec (.prn a) s = .next { s with run := .faulted (.outOfBounds s.pc 0x47 a.toNat) } ∧
      exec (.add a b) s = .next { s with run := .faulted (.outOfBounds s.pc 0xA0 a.toNat) } ∧
      exec (.sub a b) s = .next { s with run := .faulted (.outOfBounds s.pc 0xA1 a.toNat) } ∧
      exec (.mul a b) s = .next { s with run := .faulted (.outOfBounds s.pc 0xA2 a.toNat) } ∧
      exec (.push a) s = .next { s with run := .faulted (.outOfBounds s.pc 0x45 a.toNat) } ∧
      exec (.pop a) s = .next { s with run := .faulted (.outOfBounds s.pc 0x46 a.toNat) } ∧
      exec (.jmp a) s = .next { s with run := .faulted (.outOfBounds s.pc 0x54 a.toNat) } ∧
      exec (.call a) s = .next { s with run := .faulted (.outOfBounds s.pc 0x50 a.toNat) }) ∧
    (a.toNat ≤ 7 → 7 < b.toNat →
      exec (.add a b) s = .next { s with run := .faulted (.outOfBounds s.pc 0xA0 b.toNat) } ∧
      exec (.sub a b) s = .next { s with run := .faulted (.outOfBounds s.pc 0xA1 b.toNat) } ∧
      exec (.mul a b) s = .next { s with run := .faulted (.outOfBounds s.pc 0xA2 b.toNat) })

/-- 44_control_transfer.md (CALL): a return address above 0xFF raises `OutOfBounds(pc, 0x50, ret)` before the stack
pointer moves (decision D6, log entry 11); in a step this happens only at pc = 0xFE. -/
def Obligations.CallReturnAddressFaults : Prop :=
  (∀ (s : State) (a : Byte), a.toNat ≤ 7 → 0xFF < s.pc + 2 →
    exec (.call a) s = .next { s with run := .faulted (.outOfBounds s.pc 0x50 (s.pc + 2)) }) ∧
  (∀ (s : State) (a : Byte), s.run = .running → bytesAt s s.pc (encode (.call a)) = true → a.toNat ≤ 7 →
    ((∃ value, FaultsWith s (.outOfBounds s.pc 0x50 value)) ↔ s.pc = 0xFE) ∧
    (s.pc = 0xFE → FaultsWith s (.outOfBounds 0xFE 0x50 0x100)))

/-- 43_stack.md (POP) and 44_control_transfer.md (RET): popping a cell that was never written raises
`UninitializedMemoryAccess(pc, SP)`, and neither the destination, the pc nor the stack pointer changes (precision is
decision D8, log entry 2). -/
def Obligations.PoppingAnUnwrittenCellFaults : Prop :=
  ∀ s : State, s.memRead s.sp.toNat = none →
    (∀ a : Byte, a.toNat ≤ 7 →
      exec (.pop a) s = .next { s with run := .faulted (.uninitializedMemoryAccess s.pc s.sp.toNat) }) ∧
    exec .ret s = .next { s with run := .faulted (.uninitializedMemoryAccess s.pc s.sp.toNat) }

/-- 60_exceptions.md section 2 (fault entry): a step that faults changes nothing but the run state, and the fault
records the address of the instruction's opcode, where the pc stays (decision D8, log entry 2). -/
def Obligations.FaultingStepChangesOnlyTheRunState : Prop :=
  ∀ (s t : State) (info : FaultInfo), step s = .next t → t.run = .faulted info →
    t = { s with redirect := false, run := .faulted info } ∧ info.pc = s.pc

/-- 60_exceptions.md section 1: each fault is raised from its own causes and no other:
`UnsupportedOperation` by an unassigned opcode byte at the pc; `UninitializedMemoryAccess` by an unreadable cell
among pc, pc+1, pc+2, or SP under POP or RET; `OutOfBounds` by a register operand above 7, or by CALL at 0xFE
(decisions D4 to D8, log entries 1, 2 and 11). -/
def Obligations.FaultsComeOnlyFromTheirCauses : Prop :=
  ∀ (s t : State) (info : FaultInfo), step s = .next t → t.run = .faulted info →
    match info with
    | .unsupportedOperation _ op =>
      s.memRead s.pc = some op ∧
        op ∉ ([0x82, 0x47, 0xA0, 0xA1, 0xA2, 0x45, 0x46, 0x54, 0x50, 0x11, 0x01] : List Byte)
    | .uninitializedMemoryAccess _ addr =>
      s.memRead addr = none ∧
        (addr = s.pc ∨ addr = s.pc + 1 ∨ addr = s.pc + 2 ∨
          (addr = s.sp.toNat ∧ (bytesAt s s.pc (encode .ret) = true ∨
            ∃ a, bytesAt s s.pc (encode (.pop a)) = true)))
    | .outOfBounds _ op value =>
      ∃ i : Instr, bytesAt s s.pc (encode i) = true ∧ i.opcode = op ∧
        ((∃ r ∈ i.registerOperands, 7 < r.toNat ∧ value = r.toNat) ∨
          (s.pc = 0xFE ∧ value = 0x100 ∧ ∃ a, i = .call a))

/-! ### The instructions: result, completion and frame -/

/-- LDI: `x[a] <- b`, for every immediate, and nothing else (41_data_movement.md, LDI). -/
def Obligations.LdiLoadsTheImmediate : Prop :=
  ∀ (s : State) (a b : Byte) (i : Fin 8), a.toNat = i.val →
    ∃ t, exec (.ldi a b) s = .next t ∧ t.readReg i = b ∧
      SameRegsExcept [i] s t ∧ SameMemExcept [] s t ∧ SameControl s t ∧ SameOut s t

/-- PRN: the output gains the value of `x[a]`, and nothing else changes (41_data_movement.md, PRN). -/
def Obligations.PrnEmitsTheRegister : Prop :=
  ∀ (s : State) (a : Byte) (i : Fin 8), a.toNat = i.val →
    ∃ t, exec (.prn a) s = .next t ∧ t.out = s.out ++ [s.readReg i] ∧
      SameRegsExcept [] s t ∧ SameMemExcept [] s t ∧ SameControl s t

/-- ADD, SUB, MUL: the exact integer result of the two unsigned values `mod 256`, both read before the write, and
nothing else changes (42_arithmetic.md; the width is decision D1, log entry 4). -/
def Obligations.ArithmeticIsExactModulo256 : Prop :=
  ∀ (s : State) (a b : Byte) (i j : Fin 8), a.toNat = i.val → b.toNat = j.val →
    (∃ t, exec (.add a b) s = .next t ∧
      ((t.readReg i).toNat : Int) = (((s.readReg i).toNat : Int) + (s.readReg j).toNat) % 256 ∧
      SameRegsExcept [i] s t ∧ SameMemExcept [] s t ∧ SameControl s t ∧ SameOut s t) ∧
    (∃ t, exec (.sub a b) s = .next t ∧
      ((t.readReg i).toNat : Int) = (((s.readReg i).toNat : Int) - (s.readReg j).toNat) % 256 ∧
      SameRegsExcept [i] s t ∧ SameMemExcept [] s t ∧ SameControl s t ∧ SameOut s t) ∧
    (∃ t, exec (.mul a b) s = .next t ∧
      ((t.readReg i).toNat : Int) = (((s.readReg i).toNat : Int) * (s.readReg j).toNat) % 256 ∧
      SameRegsExcept [i] s t ∧ SameMemExcept [] s t ∧ SameControl s t ∧ SameOut s t)

/-- The results of ADD, SUB and MUL are the same whether the operands are read as unsigned or as two's-complement
signed numbers (42_arithmetic.md, the common laws; the width is decision D1, log entry 4). -/
def Obligations.SignedReadingGivesTheSameBytes : Prop :=
  ∀ (s : State) (a b : Byte) (i j : Fin 8), a.toNat = i.val → b.toNat = j.val →
    exec (.add a b) s = .next (s.writeReg i (BitVec.ofInt 8 ((s.readReg i).toInt + (s.readReg j).toInt))) ∧
    exec (.sub a b) s = .next (s.writeReg i (BitVec.ofInt 8 ((s.readReg i).toInt - (s.readReg j).toInt))) ∧
    exec (.mul a b) s = .next (s.writeReg i (BitVec.ofInt 8 ((s.readReg i).toInt * (s.readReg j).toInt)))

/-- PUSH: the stack pointer is decremented with 8-bit wrap, then the register, read after the decrement, is stored
at the new stack pointer; nothing else changes (43_stack.md, PUSH; decisions D10 and D11, log entry 10). -/
def Obligations.PushStoresBelowTheStackPointer : Prop :=
  ∀ (s : State) (a : Byte) (i : Fin 8), a.toNat = i.val →
    ∃ t, exec (.push a) s = .next t ∧
      s.pushAddress.toNat = (s.sp.toNat + 255) % 256 ∧ t.readReg 7 = s.pushAddress ∧
      t.memRead s.pushAddress.toNat = some (if i = 7 then s.pushAddress else s.readReg i) ∧
      SameRegsExcept [7] s t ∧ SameMemExcept [s.pushAddress.toNat] s t ∧ SameControl s t ∧ SameOut s t

/-- POP: the byte at the stack pointer goes to `x[a]`, then the stack pointer is incremented with 8-bit wrap (for
`a` = 7 it ends as the byte plus 1); memory and everything else is as before (43_stack.md, POP; decisions D10 and
D11, log entry 10). -/
def Obligations.PopLoadsFromTheStackPointer : Prop :=
  ∀ (s : State) (a v : Byte) (i : Fin 8), a.toNat = i.val → s.memRead s.sp.toNat = some v →
    ∃ t, exec (.pop a) s = .next t ∧
      (i ≠ 7 → t.readReg i = v ∧ (t.readReg 7).toNat = (s.sp.toNat + 1) % 256) ∧
      (i = 7 → (t.readReg 7).toNat = (v.toNat + 1) % 256) ∧
      SameRegsExcept [i, 7] s t ∧ SameMemExcept [] s t ∧ SameControl s t ∧ SameOut s t

/-- JMP: the pc is the value of `x[a]` and the redirect signal is set; no register, no memory, no output changes
(44_control_transfer.md, JMP). -/
def Obligations.JmpSetsThePc : Prop :=
  ∀ (s : State) (a : Byte) (i : Fin 8), a.toNat = i.val →
    ∃ t, exec (.jmp a) s = .next t ∧ t.pc = (s.readReg i).toNat ∧ t.redirect = true ∧ t.run = s.run ∧
      SameRegsExcept [] s t ∧ SameMemExcept [] s t ∧ SameOut s t

/-- CALL: the return address pc + 2 is pushed as PUSH pushes, then the pc is the value of `x[a]` read after the push
(for `a` = 7 the decremented stack pointer), and the redirect signal is set; nothing else changes
(44_control_transfer.md, CALL; decisions D6, D10 and D11, log entries 10 and 11). -/
def Obligations.CallPushesTheReturnAddressAndJumps : Prop :=
  ∀ (s : State) (a : Byte) (i : Fin 8), a.toNat = i.val → s.pc + 2 ≤ 0xFF →
    ∃ t, exec (.call a) s = .next t ∧
      (∃ ret : Byte, ret.toNat = s.pc + 2 ∧ t.memRead s.pushAddress.toNat = some ret) ∧
      s.pushAddress.toNat = (s.sp.toNat + 255) % 256 ∧ t.readReg 7 = s.pushAddress ∧
      t.pc = (if i = 7 then s.pushAddress else s.readReg i).toNat ∧ t.redirect = true ∧ t.run = s.run ∧
      SameRegsExcept [7] s t ∧ SameMemExcept [s.pushAddress.toNat] s t ∧ SameOut s t

/-- RET: the pc is the byte at the stack pointer, the stack pointer is incremented with 8-bit wrap and the redirect
signal is set; memory and everything else is as before (44_control_transfer.md, RET; the wrap is decision D10, log
entry 10). -/
def Obligations.RetPopsThePc : Prop :=
  ∀ (s : State) (v : Byte), s.memRead s.sp.toNat = some v →
    ∃ t, exec .ret s = .next t ∧ t.pc = v.toNat ∧ (t.readReg 7).toNat = (s.sp.toNat + 1) % 256 ∧
      t.redirect = true ∧ t.run = s.run ∧
      SameRegsExcept [7] s t ∧ SameMemExcept [] s t ∧ SameOut s t

/-- HLT: the run state becomes `Halted`; the pc and everything else is as before (40_execution_loop.md section 2;
decision D19, log entry 9). -/
def Obligations.HltOnlyHalts : Prop :=
  ∀ s : State, ∃ t, exec .hlt s = .next t ∧ t.run = .halted ∧ t.pc = s.pc ∧ t.redirect = s.redirect ∧
    SameRegsExcept [] s t ∧ SameMemExcept [] s t ∧ SameOut s t

/-! ### Whole rules, from the bytes in memory to the next state -/

/-- The LDI rule whole (41_data_movement.md, LDI), from the bytes `0x82 a b` at the pc to the next state, with
every fault the rule lists (the opcode value, the index fault and precision, which the rule takes over, are
decisions D4, D5 and D8, log entries 1, 11 and 2). -/
def Obligations.LdiRuleFromItsBytes : Prop :=
  ∀ s : State, s.run = .running →
    ((s.pc > 0xFF ∨ s.memRead s.pc = none) → FaultsWith s (.uninitializedMemoryAccess s.pc s.pc)) ∧
    (s.memRead s.pc = some 0x82 →
      (s.memRead (s.pc + 1) = none → FaultsWith s (.uninitializedMemoryAccess s.pc (s.pc + 1))) ∧
      (s.memRead (s.pc + 1) ≠ none → s.memRead (s.pc + 2) = none →
        FaultsWith s (.uninitializedMemoryAccess s.pc (s.pc + 2))) ∧
      (∀ a b : Byte, s.memRead (s.pc + 1) = some a → s.memRead (s.pc + 2) = some b →
        (7 < a.toNat → FaultsWith s (.outOfBounds s.pc 0x82 a.toNat)) ∧
        (∀ i : Fin 8, a.toNat = i.val → ∃ t, step s = .next t ∧ t.readReg i = b ∧ t.pc = s.pc + 3 ∧
          t.run = .running ∧ t.redirect = false ∧ SameRegsExcept [i] s t ∧ SameMemExcept [] s t ∧ SameOut s t)))

/-- The ADD, SUB and MUL rules whole (42_arithmetic.md), from the bytes `0xA0 a b`, `0xA1 a b`, `0xA2 a
b` at the pc to the next state, with every fault the rules list (the opcode values, the index fault and precision,
which the rules take over, are decisions D4, D5 and D8, log entries 1, 11 and 2). -/
def Obligations.ArithmeticRulesFromTheirBytes : Prop :=
  ∀ (s : State) (op : Byte) (f : Int → Int → Int), s.run = .running →
    (op = 0xA0 ∧ f = (fun x y => x + y) ∨ op = 0xA1 ∧ f = (fun x y => x - y) ∨ op = 0xA2 ∧ f = (fun x y => x * y)) →
    ((s.pc > 0xFF ∨ s.memRead s.pc = none) → FaultsWith s (.uninitializedMemoryAccess s.pc s.pc)) ∧
    (s.memRead s.pc = some op →
      (s.memRead (s.pc + 1) = none → FaultsWith s (.uninitializedMemoryAccess s.pc (s.pc + 1))) ∧
      (s.memRead (s.pc + 1) ≠ none → s.memRead (s.pc + 2) = none →
        FaultsWith s (.uninitializedMemoryAccess s.pc (s.pc + 2))) ∧
      (∀ a b : Byte, s.memRead (s.pc + 1) = some a → s.memRead (s.pc + 2) = some b →
        (7 < a.toNat → FaultsWith s (.outOfBounds s.pc op a.toNat)) ∧
        (a.toNat ≤ 7 → 7 < b.toNat → FaultsWith s (.outOfBounds s.pc op b.toNat)) ∧
        (∀ i j : Fin 8, a.toNat = i.val → b.toNat = j.val → ∃ t, step s = .next t ∧
          ((t.readReg i).toNat : Int) = f (s.readReg i).toNat (s.readReg j).toNat % 256 ∧ t.pc = s.pc + 3 ∧
          t.run = .running ∧ t.redirect = false ∧ SameRegsExcept [i] s t ∧ SameMemExcept [] s t ∧ SameOut s t)))

/-- The JMP rule whole (44_control_transfer.md, JMP), from the bytes `0x54 a` at the pc to the next state, with
every fault the rule lists; a target equal to the JMP's own address leaves the pc there (the opcode value, the
index fault and precision, which the rule takes over, are decisions D4, D5 and D8, log entries 1, 11 and 2; that
the redirect signal is 0 after the step is DEDUCED, 10_state.md section 5, decision D13, log entry 6). -/
def Obligations.JmpRuleFromItsBytes : Prop :=
  ∀ s : State, s.run = .running →
    ((s.pc > 0xFF ∨ s.memRead s.pc = none) → FaultsWith s (.uninitializedMemoryAccess s.pc s.pc)) ∧
    (s.memRead s.pc = some 0x54 →
      (s.memRead (s.pc + 1) = none → FaultsWith s (.uninitializedMemoryAccess s.pc (s.pc + 1))) ∧
      (∀ a : Byte, s.memRead (s.pc + 1) = some a →
        (7 < a.toNat → FaultsWith s (.outOfBounds s.pc 0x54 a.toNat)) ∧
        (∀ i : Fin 8, a.toNat = i.val → step s = .next { s with pc := (s.readReg i).toNat, redirect := false })))

/-- The RET rule whole (44_control_transfer.md, RET), from the byte `0x11` at the pc to the next state, with every
fault the rule lists (the opcode value and the wrap, which the rule takes over, are decisions D4 and D10, log
entries 1 and 10; that the redirect signal is 0 after the step is DEDUCED, 10_state.md section 5, decision D13,
log entry 6). -/
def Obligations.RetRuleFromItsByte : Prop :=
  ∀ s : State, s.run = .running →
    ((s.pc > 0xFF ∨ s.memRead s.pc = none) → FaultsWith s (.uninitializedMemoryAccess s.pc s.pc)) ∧
    (s.memRead s.pc = some 0x11 →
      (s.memRead s.sp.toNat = none → FaultsWith s (.uninitializedMemoryAccess s.pc s.sp.toNat)) ∧
      (∀ v, s.memRead s.sp.toNat = some v → ∃ t, step s = .next t ∧ t.pc = v.toNat ∧
        (t.readReg 7).toNat = (s.sp.toNat + 1) % 256 ∧ t.run = .running ∧ t.redirect = false ∧
        SameRegsExcept [7] s t ∧ SameMemExcept [] s t ∧ SameOut s t))

/-! ### Rules about more than one step -/

/-- PUSH then POP into the same register (not R7) is a no-op on every register, and leaves only the pushed cell
changed (43_stack.md, POP corner case 4; 95_test_vectors.md S5; the wrap is decision D10, log entry 10). -/
def Obligations.PushThenPopRestoresTheRegisters : Prop :=
  ∀ (s : State) (a : Byte) (i : Fin 8), a.toNat = i.val → i ≠ 7 →
    ∃ t u, exec (.push a) s = .next t ∧ exec (.pop a) t = .next u ∧
      SameRegsExcept [] s u ∧ SameMemExcept [s.pushAddress.toNat] s u ∧
      u.memRead s.pushAddress.toNat = some (s.readReg i) ∧ SameControl s u ∧ SameOut s u

/-- A RET that finds the stack pointer and its cell as a CALL left them goes to the instruction immediately after
the CALL, with the stack pointer restored (44_control_transfer.md, CALL corner case 3; the wrap of the stack
pointer is decision D10, log entry 10). -/
def Obligations.RetReturnsAfterTheCall : Prop :=
  ∀ (s t u : State) (a : Byte), s.run = .running → bytesAt s s.pc (encode (.call a)) = true →
    step s = .next t → t.run = .running → u.run = .running → bytesAt u u.pc (encode .ret) = true → u.sp = t.sp →
    u.memRead u.sp.toNat = t.memRead t.sp.toNat →
    ∃ w, step u = .next w ∧ w.pc = s.pc + 2 ∧ w.sp = s.sp ∧ w.run = .running

/-- A JMP to its own address runs for ever and changes nothing: neither a halt nor a fault
(44_control_transfer.md, JMP corner case 2; 40_execution_loop.md section 5; 70_reset_and_hazards.md section 4; the
state stays the same since the pc update sets the redirect signal back to 0, which is DEDUCED, 10_state.md section
5, decision D13, log entry 6; no step limit is decision D14, log entry 14). -/
def Obligations.JumpToItselfRunsForEver : Prop :=
  ∀ (s : State) (a : Byte) (i : Fin 8), s.run = .running → s.redirect = false →
    bytesAt s s.pc (encode (.jmp a)) = true → a.toNat = i.val → (s.readReg i).toNat = s.pc →
    ∀ n, runFor n s = s

/-- Instruction fetch sees every earlier store at once: a byte pushed at the address of the next instruction is
the opcode the next step fetches; pushed as HLT's byte it halts, pushed as an unassigned byte without operands it
faults (20_memory.md section 6; marked derived in the spec; the opcode values are decision D4, log entry 1; the
byte pushed and its address are those of the PUSH rule, 43_stack.md, the wrap of the address and the byte of PUSH
R7 being decisions D10 and D11, log entry 10; the state after HLT is 40_execution_loop.md section 2, decision D19,
log entry 9; that the fault changes nothing else is decision D8, log entry 2). -/
def Obligations.PushedByteIsExecutedNext : Prop :=
  ∀ (s : State) (a : Byte) (i : Fin 8) (v : Byte), s.run = .running →
    bytesAt s s.pc (encode (.push a)) = true → a.toNat = i.val → s.pushAddress.toNat = s.pc + 2 →
    v = (if i = 7 then s.pushAddress else s.readReg i) →
    ∃ t, step s = .next t ∧ t.pc = s.pc + 2 ∧ t.memRead t.pc = some v ∧
      (v = 0x01 → step t = .next { t with run := .halted }) ∧
      (v ∉ assignedOpcodes → operandCount v = 0 → FaultsWith t (.unsupportedOperation t.pc v))

/-- 10_state.md R23: OUT is empty at reset, only PRN changes it, by appending the value of its register, and the
program cannot read it: with another output stream the step does the same and appends the same. -/
def Obligations.OutputIsAppendedByPrnAndNeverRead : Prop :=
  State.reset.out = [] ∧
  (∀ s t : State, step s = .next t → t.out = s.out ∨
    ∃ (a : Byte) (i : Fin 8), bytesAt s s.pc (encode (.prn a)) = true ∧ a.toNat = i.val ∧
      t.out = s.out ++ [s.readReg i]) ∧
  (∀ (s t : State) (o : List Byte), step s = .next t →
    ∃ suffix, t.out = s.out ++ suffix ∧ step { s with out := o } = .next { t with out := o ++ suffix })

/-- Each emitted value is rendered as its unsigned decimal numeral, without leading zeros or padding, and one line
feed (41_data_movement.md, the rendering; decision D9, log entry 12): the digits are decimal, their value is the
byte's, and the first is not 0 unless it is the only one; and a stream is the concatenation of its lines. -/
def Obligations.RenderingIsUnsignedDecimalLines : Prop :=
  (∀ v : Byte, ∃ digits : List Nat, digits ≠ [] ∧ (∀ d ∈ digits, d < 10) ∧
    (digits.head? = some 0 → digits.length = 1) ∧ digits.foldl (fun n d => 10 * n + d) 0 = v.toNat ∧
    renderValue v = digits.map (fun d => BitVec.ofNat 8 (0x30 + d)) ++ [0x0A]) ∧
  (∀ out more : List Byte, renderOut (out ++ more) = renderOut out ++ renderOut more) ∧
  (∀ v : Byte, renderOut [v] = renderValue v)

/-! ### The invariant -/

/-- Every step keeps the invariant: memory in its canonical form (a list of rising, existing addresses, which is
the model's own form, log entry 5), the redirect signal 0, the pc within 0 .. 0x102 (10_state.md sections 3, 5;
20_memory.md section 1; decisions D2, D3 and D13, log entries 3 to 6). -/
def Obligations.StepKeepsTheInvariant : Prop :=
  ∀ s t : State, s.Inv → step s = .next t → t.Inv

/-- The invariant holds at reset and after every load, so at the start of every run (70_reset_and_hazards.md
section 2; 10_state.md sections 3, 5, 6; 20_memory.md sections 1 and 5). Its first part, memory as a list of
rising, existing addresses, is the model's own form (log entry 5) of the memory of decision D2 (log entry 4); the
images are those of decision D15 (log entry 8); the other parts rest on D3 and D13 (log entries 3 and 6). -/
def Obligations.RunsStartInTheInvariant : Prop :=
  State.reset.Inv ∧ ∀ (image : List Byte) (t : State), boot image = .next t → t.Inv

/-- The model's own convention for loading one instruction (log entry 7): after `withFetchWord` the next step of a
running machine, whose pc leaves room for three bytes, runs the instruction that the word decodes to (the pc
update of a transfer sets the signal back to 0, log entry 6, and HLT is an arm of exec, log entry 9). -/
def Obligations.FetchWordIsRunNext : Prop :=
  ∀ (s : State) (nbits w : Nat) (i : Instr), s.run = .running → s.pc ≤ 0xFD → decodeTableWord nbits w = some i →
    ∃ u, exec i (s.withFetchWord nbits w).clearRedirect = .next u ∧
      step (s.withFetchWord nbits w) = .next (u.pcUpdate (operandCount i.opcode))
end

