-- ==== Sys2Proof/Laws/Decode.lean ====
section
/-! SUPPORT. The pieces of the decoder: what the dispatch table, the taking of operand bytes and the
encoder's parts say, each once. -/

namespace Sys2Proof

/-- `count` of each assigned opcode (30_encoding.md R56, the column `N`). -/
@[simp] theorem operandCount_opcode (i : Instr) : operandCount i.opcode = i.operandBytes.length := by
  have one : ∀ op ∈ [opcPrn, opcPush, opcPop, opcJmp, opcCall], operandCount op = 1 := by decide
  have two : ∀ op ∈ [opcLdi, opcAdd, opcSub, opcMul], operandCount op = 2 := by decide
  have zero : ∀ op ∈ [opcRet, opcHlt], operandCount op = 0 := by decide
  cases i with
  | ldi a b => exact two opcLdi (by simp)
  | prn a => exact one opcPrn (by simp)
  | add a b => exact two opcAdd (by simp)
  | sub a b => exact two opcSub (by simp)
  | mul a b => exact two opcMul (by simp)
  | push a => exact one opcPush (by simp)
  | pop a => exact one opcPop (by simp)
  | jmp a => exact one opcJmp (by simp)
  | call a => exact one opcCall (by simp)
  | ret => exact zero opcRet (by simp)
  | hlt => exact zero opcHlt (by simp)

/-- Only HLT has HLT's opcode. -/
theorem opcode_ne_hlt {i : Instr} (h : i ≠ .hlt) : i.opcode ≠ opcHlt := by
  have key : ∀ op ∈ assignedOpcodes.take 10, op ≠ opcHlt := by decide
  apply key
  cases i <;> simp [Instr.opcode, assignedOpcodes] at h ⊢

/-- The dispatch table answers an instruction only for its own opcode and its own operand bytes. -/
theorem dispatchTable_sound {op : Byte} {operands : List Byte} {i : Instr}
    (h : dispatchTable op operands = some i) :
    op = i.opcode ∧ operands = i.operandBytes ∧ i ≠ .hlt := by
  unfold dispatchTable at h
  split at h
  · repeat' split at h
    all_goals first | cases h; simp_all [Instr.opcode, Instr.operandBytes] | cases h
  · repeat' split at h
    all_goals first | cases h; simp_all [Instr.opcode, Instr.operandBytes] | cases h
  · repeat' split at h
    all_goals first | cases h; simp_all [Instr.opcode, Instr.operandBytes] | cases h
  · cases h

/-- The dispatch table holds every instruction but HLT. -/
theorem dispatchTable_complete (i : Instr) (h : i ≠ .hlt) : dispatchTable i.opcode i.operandBytes = some i := by
  cases i <;> first | rfl | exact absurd rfl h

/-- Which bytes dispatch, when as many operands were fetched as the opcode's top bits ask for. -/
theorem dispatchTable_none_iff (op : Byte) (operands : List Byte) (hn : operands.length = operandCount op)
    (hh : op ≠ opcHlt) : dispatchTable op operands = none ↔ op ∉ assignedOpcodes := by
  constructor
  · intro h hm
    have key : ∀ i : Instr, op = i.opcode → operands.length = i.operandBytes.length := by
      intro i hi
      rw [hn, hi, operandCount_opcode]
    have finish : ∀ i : Instr, i ≠ .hlt → op = i.opcode → operands = i.operandBytes → False := by
      intro i hi ho hb
      rw [ho, hb, dispatchTable_complete i hi] at h
      cases h
    simp only [assignedOpcodes, List.mem_cons, List.not_mem_nil, or_false] at hm
    rcases hm with hm | hm | hm | hm | hm | hm | hm | hm | hm | hm | hm
    · have := key (.ldi 0 0) hm
      obtain ⟨a, b, hab⟩ := List.length_eq_two.1 this
      exact finish (.ldi a b) (by simp) hm hab
    · have := key (.prn 0) hm
      obtain ⟨a, hab⟩ := List.length_eq_one_iff.1 this
      exact finish (.prn a) (by simp) hm hab
    · have := key (.add 0 0) hm
      obtain ⟨a, b, hab⟩ := List.length_eq_two.1 this
      exact finish (.add a b) (by simp) hm hab
    · have := key (.sub 0 0) hm
      obtain ⟨a, b, hab⟩ := List.length_eq_two.1 this
      exact finish (.sub a b) (by simp) hm hab
    · have := key (.mul 0 0) hm
      obtain ⟨a, b, hab⟩ := List.length_eq_two.1 this
      exact finish (.mul a b) (by simp) hm hab
    · have := key (.push 0) hm
      obtain ⟨a, hab⟩ := List.length_eq_one_iff.1 this
      exact finish (.push a) (by simp) hm hab
    · have := key (.pop 0) hm
      obtain ⟨a, hab⟩ := List.length_eq_one_iff.1 this
      exact finish (.pop a) (by simp) hm hab
    · have := key (.jmp 0) hm
      obtain ⟨a, hab⟩ := List.length_eq_one_iff.1 this
      exact finish (.jmp a) (by simp) hm hab
    · have := key (.call 0) hm
      obtain ⟨a, hab⟩ := List.length_eq_one_iff.1 this
      exact finish (.call a) (by simp) hm hab
    · exact finish .ret (by simp) hm (List.length_eq_zero_iff.1 (key .ret hm))
    · exact hh hm
  · intro hm
    cases h : dispatchTable op operands with
    | none => rfl
    | some i =>
      refine absurd ?_ hm
      rw [(dispatchTable_sound h).1]
      cases i <;> simp [Instr.opcode, assignedOpcodes]

theorem takeBytes_append (front rest : List Byte) :
    takeBytes front.length (front ++ rest) = some (front, rest) := by
  induction front with
  | nil => rfl
  | cons b front ih => simp [takeBytes, ih]

theorem takeBytes_eq_some {n : Nat} {bytes front rest : List Byte} (h : takeBytes n bytes = some (front, rest)) :
    bytes = front ++ rest ∧ front.length = n := by
  induction n generalizing bytes front with
  | zero => simp_all [takeBytes]
  | succ n ih =>
    cases bytes with
    | nil => simp [takeBytes] at h
    | cons b bytes =>
      simp only [takeBytes] at h
      split at h
      · rename_i taken rest' ht
        cases h
        have := ih ht
        simp [this.1, this.2]
      · cases h

theorem takeBytes_eq_none {n : Nat} {bytes : List Byte} : takeBytes n bytes = none ↔ bytes.length < n := by
  induction n generalizing bytes with
  | zero => simp [takeBytes]
  | succ n ih =>
    cases bytes with
    | nil => simp [takeBytes]
    | cons b bytes =>
      simp only [takeBytes, List.length_cons, Nat.add_lt_add_iff_right, ← ih]
      split <;> simp_all

end Sys2Proof
end

