-- ==== Sys2Proof/Laws/State.lean ====
section
/-! SUPPORT. One lemma per field per update of the state, so that no later proof unfolds a record update;
then what each update does to a register read and to a memory read. -/

namespace Sys2Proof.Machine

variable (s : State)

/-! ### writeReg -/

@[simp] theorem State.writeReg_regs (i : Fin Config.numRegs) (v : Byte) : (s.writeReg i v).regs = s.regs.set i v := rfl
@[simp] theorem State.writeReg_pc (i : Fin Config.numRegs) (v : Byte) : (s.writeReg i v).pc = s.pc := rfl
@[simp] theorem State.writeReg_mem (i : Fin Config.numRegs) (v : Byte) : (s.writeReg i v).mem = s.mem := rfl
@[simp] theorem State.writeReg_run (i : Fin Config.numRegs) (v : Byte) : (s.writeReg i v).run = s.run := rfl
@[simp] theorem State.writeReg_redirect (i : Fin Config.numRegs) (v : Byte) : (s.writeReg i v).redirect = s.redirect := rfl
@[simp] theorem State.writeReg_out (i : Fin Config.numRegs) (v : Byte) : (s.writeReg i v).out = s.out := rfl
@[simp] theorem State.writeReg_memRead (i : Fin Config.numRegs) (v : Byte) (x : Nat) : (s.writeReg i v).memRead x = s.memRead x := rfl

/-! ### memWrite -/

@[simp] theorem State.memWrite_regs (addr v : Byte) : (s.memWrite addr v).regs = s.regs := rfl
@[simp] theorem State.memWrite_pc (addr v : Byte) : (s.memWrite addr v).pc = s.pc := rfl
@[simp] theorem State.memWrite_mem (addr v : Byte) : (s.memWrite addr v).mem = Memory.write s.mem addr.toNat v := rfl
@[simp] theorem State.memWrite_run (addr v : Byte) : (s.memWrite addr v).run = s.run := rfl
@[simp] theorem State.memWrite_redirect (addr v : Byte) : (s.memWrite addr v).redirect = s.redirect := rfl
@[simp] theorem State.memWrite_out (addr v : Byte) : (s.memWrite addr v).out = s.out := rfl
@[simp] theorem State.memWrite_readReg (addr v : Byte) (j : Fin Config.numRegs) : (s.memWrite addr v).readReg j = s.readReg j := rfl
@[simp] theorem State.memWrite_sp (addr v : Byte) : (s.memWrite addr v).sp = s.sp := rfl

/-! ### redirectTo -/

@[simp] theorem State.redirectTo_regs (target : Byte) : (s.redirectTo target).regs = s.regs := rfl
@[simp] theorem State.redirectTo_pc (target : Byte) : (s.redirectTo target).pc = target.toNat := rfl
@[simp] theorem State.redirectTo_mem (target : Byte) : (s.redirectTo target).mem = s.mem := rfl
@[simp] theorem State.redirectTo_run (target : Byte) : (s.redirectTo target).run = s.run := rfl
@[simp] theorem State.redirectTo_redirect (target : Byte) : (s.redirectTo target).redirect = true := rfl
@[simp] theorem State.redirectTo_out (target : Byte) : (s.redirectTo target).out = s.out := rfl
@[simp] theorem State.redirectTo_readReg (target : Byte) (j : Fin Config.numRegs) : (s.redirectTo target).readReg j = s.readReg j := rfl
@[simp] theorem State.redirectTo_sp (target : Byte) : (s.redirectTo target).sp = s.sp := rfl
@[simp] theorem State.redirectTo_memRead (target : Byte) (x : Nat) : (s.redirectTo target).memRead x = s.memRead x := rfl

/-! ### clearRedirect -/

@[simp] theorem State.clearRedirect_regs : (s.clearRedirect).regs = s.regs := rfl
@[simp] theorem State.clearRedirect_pc : (s.clearRedirect).pc = s.pc := rfl
@[simp] theorem State.clearRedirect_mem : (s.clearRedirect).mem = s.mem := rfl
@[simp] theorem State.clearRedirect_run : (s.clearRedirect).run = s.run := rfl
@[simp] theorem State.clearRedirect_redirect : (s.clearRedirect).redirect = false := rfl
@[simp] theorem State.clearRedirect_out : (s.clearRedirect).out = s.out := rfl
@[simp] theorem State.clearRedirect_readReg (j : Fin Config.numRegs) : (s.clearRedirect).readReg j = s.readReg j := rfl
@[simp] theorem State.clearRedirect_sp : (s.clearRedirect).sp = s.sp := rfl
@[simp] theorem State.clearRedirect_memRead (x : Nat) : (s.clearRedirect).memRead x = s.memRead x := rfl

/-! ### halt -/

@[simp] theorem State.halt_regs : (s.halt).regs = s.regs := rfl
@[simp] theorem State.halt_pc : (s.halt).pc = s.pc := rfl
@[simp] theorem State.halt_mem : (s.halt).mem = s.mem := rfl
@[simp] theorem State.halt_run : (s.halt).run = .halted := rfl
@[simp] theorem State.halt_redirect : (s.halt).redirect = s.redirect := rfl
@[simp] theorem State.halt_out : (s.halt).out = s.out := rfl
@[simp] theorem State.halt_readReg (j : Fin Config.numRegs) : (s.halt).readReg j = s.readReg j := rfl
@[simp] theorem State.halt_sp : (s.halt).sp = s.sp := rfl
@[simp] theorem State.halt_memRead (x : Nat) : (s.halt).memRead x = s.memRead x := rfl

/-! ### emit -/

@[simp] theorem State.emit_regs (v : Byte) : (s.emit v).regs = s.regs := rfl
@[simp] theorem State.emit_pc (v : Byte) : (s.emit v).pc = s.pc := rfl
@[simp] theorem State.emit_mem (v : Byte) : (s.emit v).mem = s.mem := rfl
@[simp] theorem State.emit_run (v : Byte) : (s.emit v).run = s.run := rfl
@[simp] theorem State.emit_redirect (v : Byte) : (s.emit v).redirect = s.redirect := rfl
@[simp] theorem State.emit_out (v : Byte) : (s.emit v).out = s.out ++ [v] := rfl
@[simp] theorem State.emit_readReg (v : Byte) (j : Fin Config.numRegs) : (s.emit v).readReg j = s.readReg j := rfl
@[simp] theorem State.emit_sp (v : Byte) : (s.emit v).sp = s.sp := rfl
@[simp] theorem State.emit_memRead (v : Byte) (x : Nat) : (s.emit v).memRead x = s.memRead x := rfl

/-! ### raise -/

@[simp] theorem State.raise_regs (info : FaultInfo) : (s.raise info).regs = s.regs := rfl
@[simp] theorem State.raise_pc (info : FaultInfo) : (s.raise info).pc = s.pc := rfl
@[simp] theorem State.raise_mem (info : FaultInfo) : (s.raise info).mem = s.mem := rfl
@[simp] theorem State.raise_run (info : FaultInfo) : (s.raise info).run = .faulted info := rfl
@[simp] theorem State.raise_redirect (info : FaultInfo) : (s.raise info).redirect = s.redirect := rfl
@[simp] theorem State.raise_out (info : FaultInfo) : (s.raise info).out = s.out := rfl
@[simp] theorem State.raise_readReg (info : FaultInfo) (j : Fin Config.numRegs) : (s.raise info).readReg j = s.readReg j := rfl
@[simp] theorem State.raise_sp (info : FaultInfo) : (s.raise info).sp = s.sp := rfl
@[simp] theorem State.raise_memRead (info : FaultInfo) (x : Nat) : (s.raise info).memRead x = s.memRead x := rfl

/-! ### decrementSp -/

@[simp] theorem State.decrementSp_pc : (s.decrementSp).pc = s.pc := rfl
@[simp] theorem State.decrementSp_mem : (s.decrementSp).mem = s.mem := rfl
@[simp] theorem State.decrementSp_run : (s.decrementSp).run = s.run := rfl
@[simp] theorem State.decrementSp_redirect : (s.decrementSp).redirect = s.redirect := rfl
@[simp] theorem State.decrementSp_out : (s.decrementSp).out = s.out := rfl
@[simp] theorem State.decrementSp_memRead (x : Nat) : (s.decrementSp).memRead x = s.memRead x := rfl

/-! ### incrementSp -/

@[simp] theorem State.incrementSp_pc : (s.incrementSp).pc = s.pc := rfl
@[simp] theorem State.incrementSp_mem : (s.incrementSp).mem = s.mem := rfl
@[simp] theorem State.incrementSp_run : (s.incrementSp).run = s.run := rfl
@[simp] theorem State.incrementSp_redirect : (s.incrementSp).redirect = s.redirect := rfl
@[simp] theorem State.incrementSp_out : (s.incrementSp).out = s.out := rfl
@[simp] theorem State.incrementSp_memRead (x : Nat) : (s.incrementSp).memRead x = s.memRead x := rfl

/-! ### pushByte -/

@[simp] theorem State.pushByte_pc (v : Byte) : (s.pushByte v).pc = s.pc := rfl
@[simp] theorem State.pushByte_mem (v : Byte) : (s.pushByte v).mem = Memory.write s.mem s.pushAddress.toNat v := rfl
@[simp] theorem State.pushByte_run (v : Byte) : (s.pushByte v).run = s.run := rfl
@[simp] theorem State.pushByte_redirect (v : Byte) : (s.pushByte v).redirect = s.redirect := rfl
@[simp] theorem State.pushByte_out (v : Byte) : (s.pushByte v).out = s.out := rfl

/-! ### Registers (10_state.md R13) -/

theorem State.writeReg_readReg (i : Fin Config.numRegs) (v : Byte) (j : Fin Config.numRegs) :
    (s.writeReg i v).readReg j = if i = j then v else s.readReg j := by
  simp [State.writeReg, State.readReg, Vector.getElem_set, Fin.ext_iff]

@[simp] theorem State.writeReg_readReg_same (i : Fin Config.numRegs) (v : Byte) :
    (s.writeReg i v).readReg i = v := by
  simp [State.writeReg_readReg]

theorem State.writeReg_readReg_other {i j : Fin Config.numRegs} (v : Byte) (h : j ≠ i) :
    (s.writeReg i v).readReg j = s.readReg j := by
  simp [State.writeReg_readReg, Ne.symm h]

theorem State.writeReg_sp (i : Fin Config.numRegs) (v : Byte) :
    (s.writeReg i v).sp = if i = 7 then v else s.sp := State.writeReg_readReg s i v 7

theorem State.decrementSp_readReg (j : Fin Config.numRegs) :
    s.decrementSp.readReg j = if j = 7 then s.sp - 1 else s.readReg j := by
  simp [State.decrementSp, State.pushAddress, State.writeReg_readReg, Config.spIndex, eq_comm]

theorem State.incrementSp_readReg (j : Fin Config.numRegs) :
    s.incrementSp.readReg j = if j = 7 then s.sp + 1 else s.readReg j := by
  simp [State.incrementSp, State.writeReg_readReg, Config.spIndex, eq_comm]

theorem State.pushByte_readReg (v : Byte) (j : Fin Config.numRegs) :
    (s.pushByte v).readReg j = if j = 7 then s.sp - 1 else s.readReg j :=
  State.decrementSp_readReg s j

@[simp] theorem State.decrementSp_sp : s.decrementSp.sp = s.sp - 1 := State.decrementSp_readReg s 7
@[simp] theorem State.incrementSp_sp : s.incrementSp.sp = s.sp + 1 := State.incrementSp_readReg s 7
@[simp] theorem State.pushByte_sp (v : Byte) : (s.pushByte v).sp = s.sp - 1 := State.decrementSp_readReg s 7

/-! ### The pc update -/

theorem State.pcUpdate_running {s : State} (n : Nat) (hr : s.run = .running) (hd : s.redirect = false) :
    s.pcUpdate n = { s with pc := s.pc + 1 + n } := by
  simp [State.pcUpdate, hr, hd]

theorem State.pcUpdate_redirected {s : State} (n : Nat) (hr : s.run = .running) (hd : s.redirect = true) :
    s.pcUpdate n = s.clearRedirect := by
  simp [State.pcUpdate, hr, hd, State.clearRedirect]

theorem State.pcUpdate_stopped {s : State} (n : Nat) (hr : s.run ≠ .running) : s.pcUpdate n = s := by
  unfold State.pcUpdate
  split <;> simp_all

/-- The pc update writes the pc or the redirect signal and nothing else. -/
theorem State.pcUpdate_cases (n : Nat) :
    s.pcUpdate n = s ∧ s.run ≠ .running ∨
    s.pcUpdate n = { s with redirect := false } ∧ s.run = .running ∧ s.redirect = true ∨
    s.pcUpdate n = { s with pc := s.pc + 1 + n } ∧ s.run = .running ∧ s.redirect = false := by
  unfold State.pcUpdate
  cases hr : s.run <;> cases hd : s.redirect <;> simp

@[simp] theorem State.pcUpdate_run (n : Nat) : (s.pcUpdate n).run = s.run := by
  obtain ⟨h, -⟩ | ⟨h, -⟩ | ⟨h, -⟩ := s.pcUpdate_cases n <;> rw [h]
@[simp] theorem State.pcUpdate_regs (n : Nat) : (s.pcUpdate n).regs = s.regs := by
  obtain ⟨h, -⟩ | ⟨h, -⟩ | ⟨h, -⟩ := s.pcUpdate_cases n <;> rw [h]
@[simp] theorem State.pcUpdate_mem (n : Nat) : (s.pcUpdate n).mem = s.mem := by
  obtain ⟨h, -⟩ | ⟨h, -⟩ | ⟨h, -⟩ := s.pcUpdate_cases n <;> rw [h]
@[simp] theorem State.pcUpdate_out (n : Nat) : (s.pcUpdate n).out = s.out := by
  obtain ⟨h, -⟩ | ⟨h, -⟩ | ⟨h, -⟩ := s.pcUpdate_cases n <;> rw [h]
@[simp] theorem State.pcUpdate_readReg (n : Nat) (j : Fin Config.numRegs) :
    (s.pcUpdate n).readReg j = s.readReg j := by simp [State.readReg]
@[simp] theorem State.pcUpdate_sp (n : Nat) : (s.pcUpdate n).sp = s.sp := by simp [State.sp]
@[simp] theorem State.pcUpdate_memRead (n : Nat) (x : Nat) : (s.pcUpdate n).memRead x = s.memRead x := by
  simp [State.memRead]

end Sys2Proof.Machine
end

