-- ==== Sys2Proof/Laws/Memory.lean ====
section
/-! SUPPORT. The laws of memory: reading after writing, and that every operation keeps the canonical form
(20_memory.md R31, R32, R41). -/

namespace Sys2Proof.Machine

theorem Memory.read_write (m : Memory) (addr : Nat) (v : Byte) (x : Nat) :
    Memory.read (Memory.write m addr v) x = if x = addr then some v else Memory.read m x := by
  induction m with
  | nil => simp [Memory.write, Memory.read]
  | cons c m ih =>
    unfold Memory.write
    split
    · simp [Memory.read]
    · split
      · simp only [Memory.read]
        split <;> simp_all
      · simp only [Memory.read, ih]
        split <;> split <;> simp_all

/-- The canonical form, taken apart at the head. -/
theorem Memory.wf_cons (c : Host.Cell) (m : Memory) :
    Memory.wf (c :: m) = true ↔
      addressExists c.1 = true ∧ (∀ d ∈ m.head?, c.1 < d.1) ∧ Memory.wf m = true := by
  cases m <;> simp [Memory.wf, and_assoc]

/-- The head of a memory after a write: the written cell or the head before it. -/
theorem Memory.write_head (m : Memory) (addr : Nat) (v : Byte) :
    ∀ d ∈ (Memory.write m addr v).head?, d.1 = addr ∨ d ∈ m.head? := by
  cases m with
  | nil => simp [Memory.write]
  | cons c m =>
    unfold Memory.write
    split
    · simp
    · split <;> simp

theorem Memory.write_wf (m : Memory) (addr : Nat) (v : Byte) (hm : Memory.wf m = true)
    (ha : addressExists addr = true) : Memory.wf (Memory.write m addr v) = true := by
  induction m with
  | nil => simpa [Memory.write, Memory.wf] using ha
  | cons c m ih =>
    have hc := (Memory.wf_cons c m).1 hm
    unfold Memory.write
    split
    · exact (Memory.wf_cons _ _).2 ⟨ha, by simpa using ‹addr < c.1›, hm⟩
    · split
      · subst addr
        exact (Memory.wf_cons _ _).2 ⟨ha, hc.2.1, hc.2.2⟩
      · refine (Memory.wf_cons _ _).2 ⟨hc.1, fun d hd => ?_, ih hc.2.2⟩
        obtain h | h := Memory.write_head m addr v d hd
        · omega
        · exact hc.2.1 d h

theorem addressExists_iff (addr : Nat) : addressExists addr = true ↔ addr ≤ 0xFF := by
  rw [addressExists, decide_eq_true_iff]
  exact Nat.lt_succ_iff

/-- A byte is always an address that exists (20_memory.md R33). -/
@[simp] theorem addressExists_byte (a : Byte) : addressExists a.toNat = true :=
  (addressExists_iff _).2 (by have := a.isLt; omega)

theorem State.memRead_exists {s : State} {addr : Nat} {v : Byte} (h : s.memRead addr = some v) :
    addr ≤ 0xFF := by
  unfold State.memRead at h
  split at h
  · exact (addressExists_iff _).1 ‹_›
  · cases h

theorem State.pushByte_wf (s : State) (v : Byte) (h : Memory.wf s.mem = true) :
    Memory.wf (s.pushByte v).mem = true :=
  Memory.write_wf _ _ _ h (addressExists_byte _)

/-- Reading after a write of the list of cells, through the state's read. -/
theorem State.memRead_of_write (s t : State) (addr : Nat) (v : Byte) (ha : addressExists addr = true)
    (h : t.mem = Memory.write s.mem addr v) (x : Nat) :
    t.memRead x = if x = addr then some v else s.memRead x := by
  unfold State.memRead
  rw [h, Memory.read_write]
  split <;> split <;> simp_all

theorem State.pushByte_memRead (s : State) (v : Byte) (x : Nat) :
    (s.pushByte v).memRead x = if x = s.pushAddress.toNat then some v else s.memRead x :=
  State.memRead_of_write s _ _ v (addressExists_byte _) rfl x

/-! ### Placing bytes -/

@[simp] theorem State.placeBytes_regs (s : State) (addr : Nat) (bytes : List Byte) :
    (s.placeBytes addr bytes).regs = s.regs := by
  induction bytes generalizing s addr with
  | nil => rfl
  | cons v vs ih => simp only [State.placeBytes, ih]; split <;> rfl

@[simp] theorem State.placeBytes_pc (s : State) (addr : Nat) (bytes : List Byte) :
    (s.placeBytes addr bytes).pc = s.pc := by
  induction bytes generalizing s addr with
  | nil => rfl
  | cons v vs ih => simp only [State.placeBytes, ih]; split <;> rfl

@[simp] theorem State.placeBytes_run (s : State) (addr : Nat) (bytes : List Byte) :
    (s.placeBytes addr bytes).run = s.run := by
  induction bytes generalizing s addr with
  | nil => rfl
  | cons v vs ih => simp only [State.placeBytes, ih]; split <;> rfl

@[simp] theorem State.placeBytes_redirect (s : State) (addr : Nat) (bytes : List Byte) :
    (s.placeBytes addr bytes).redirect = s.redirect := by
  induction bytes generalizing s addr with
  | nil => rfl
  | cons v vs ih => simp only [State.placeBytes, ih]; split <;> rfl

@[simp] theorem State.placeBytes_out (s : State) (addr : Nat) (bytes : List Byte) :
    (s.placeBytes addr bytes).out = s.out := by
  induction bytes generalizing s addr with
  | nil => rfl
  | cons v vs ih => simp only [State.placeBytes, ih]; split <;> rfl

theorem State.placeBytes_wf (s : State) (addr : Nat) (bytes : List Byte) (h : Memory.wf s.mem = true) :
    Memory.wf (s.placeBytes addr bytes).mem = true := by
  induction bytes generalizing s addr with
  | nil => exact h
  | cons v vs ih =>
    simp only [State.placeBytes]
    split
    · exact ih _ _ (Memory.write_wf _ _ _ h ‹_›)
    · exact ih _ _ h

/-- Placing the first byte changes one cell, if it exists. -/
theorem State.placeBytes_cons (s : State) (addr : Nat) (v : Byte) (vs : List Byte) :
    ∃ t : State, s.placeBytes addr (v :: vs) = t.placeBytes (addr + 1) vs ∧
      ∀ x, t.memRead x = if x = addr ∧ addr ≤ 0xFF then some v else s.memRead x := by
  by_cases ha : addressExists addr = true
  · refine ⟨{ s with mem := Memory.write s.mem addr v }, by simp [State.placeBytes, ha], fun x => ?_⟩
    rw [State.memRead_of_write s { s with mem := Memory.write s.mem addr v } addr v ha rfl]
    simp [(addressExists_iff _).1 ha]
  · refine ⟨s, by simp [State.placeBytes, ha], fun x => ?_⟩
    simp [mt (addressExists_iff _).2 ha]

/-- An address below the first byte placed keeps its cell. -/
theorem State.placeBytes_memRead_below (s : State) (addr : Nat) (bytes : List Byte) {x : Nat} (hx : x < addr) :
    (s.placeBytes addr bytes).memRead x = s.memRead x := by
  induction bytes generalizing s addr with
  | nil => rfl
  | cons v vs ih =>
    obtain ⟨t, hp, ht⟩ := s.placeBytes_cons addr v vs
    rw [hp, ih t (addr + 1) (by omega), ht, if_neg (by omega)]

end Sys2Proof.Machine
end

