-- ==== Sys2Proof/Laws/Exec.lean ====
section
/-! SUPPORT. What each meaning answers, once: on the operands that are legal, on those that are not, and the
inversion of a next state into its cases. Later proofs cite these instead of unfolding a meaning. -/

namespace Sys2Proof.Machine

/-! ### Operand forms -/

theorem registerOf_eq_some {r : Byte} {i : Fin Config.numRegs} : registerOf r = some i ↔ r.toNat = i.val := by
  unfold registerOf
  split
  · simp [Fin.ext_iff]
  · have := i.isLt
    simp
    omega

theorem registerOf_eq_none {r : Byte} : registerOf r = none ↔ 7 < r.toNat := by
  unfold registerOf
  split
  · have : r.toNat < 8 := ‹_›
    simp
    omega
  · have : ¬ r.toNat < 8 := ‹_›
    simp
    omega

theorem withRegister_legal {op r : Byte} {s : State} {handler : Fin Config.numRegs → Host.Outcome State Fault Refusal}
    {i : Fin Config.numRegs} (h : r.toNat = i.val) : withRegister op r s handler = handler i := by
  simp [withRegister, registerOf_eq_some.2 h]

theorem withRegister_illegal {op r : Byte} {s : State}
    {handler : Fin Config.numRegs → Host.Outcome State Fault Refusal} (h : 7 < r.toNat) :
    withRegister op r s handler = .next (s.raise (.outOfBounds s.pc op r.toNat)) := by
  simp [withRegister, registerOf_eq_none.2 h]

/-- A register operand is legal or above 7. -/
theorem register_cases (r : Byte) : (∃ i : Fin Config.numRegs, r.toNat = i.val) ∨ 7 < r.toNat := by
  cases h : registerOf r with
  | some i => exact .inl ⟨i, registerOf_eq_some.1 h⟩
  | none => exact .inr (registerOf_eq_none.1 h)

theorem withMemByte_readable {addr : Nat} {s : State} {handler : Byte → Host.Outcome State Fault Refusal} {v : Byte}
    (h : s.memRead addr = some v) : withMemByte addr s handler = handler v := by
  simp [withMemByte, h]

theorem withMemByte_unreadable {addr : Nat} {s : State} {handler : Byte → Host.Outcome State Fault Refusal}
    (h : s.memRead addr = none) :
    withMemByte addr s handler = .next (s.raise (.uninitializedMemoryAccess s.pc addr)) := by
  simp [withMemByte, h]

/-! ### The reduction modulo 256 -/

theorem wrapToByte_toNat (n : Int) : ((wrapToByte n).toNat : Int) = n % 256 := by
  have := Int.emod_nonneg n (show (256 : Int) ≠ 0 by decide)
  simp [wrapToByte, BitVec.toNat_ofInt]
  omega

/-! ### One lemma per instruction: every next state it can have -/

/-- The cases of an instruction with one register operand that cannot fault past the index check. -/
theorem withRegister_cases {op r : Byte} {s t : State}
    {handler : Fin Config.numRegs → Host.Outcome State Fault Refusal} (h : withRegister op r s handler = .next t) :
    (∃ i : Fin Config.numRegs, r.toNat = i.val ∧ handler i = .next t) ∨
    (7 < r.toNat ∧ t = s.raise (.outOfBounds s.pc op r.toNat)) := by
  obtain ⟨i, hi⟩ | hr := register_cases r
  · exact .inl ⟨i, hi, by rwa [withRegister_legal hi] at h⟩
  · rw [withRegister_illegal hr] at h
    exact .inr ⟨hr, by cases h; rfl⟩

theorem withMemByte_cases {addr : Nat} {s t : State} {handler : Byte → Host.Outcome State Fault Refusal}
    (h : withMemByte addr s handler = .next t) :
    (∃ v, s.memRead addr = some v ∧ handler v = .next t) ∨
    (s.memRead addr = none ∧ t = s.raise (.uninitializedMemoryAccess s.pc addr)) := by
  cases hv : s.memRead addr with
  | some v => exact .inl ⟨v, rfl, by rwa [withMemByte_readable hv] at h⟩
  | none =>
    rw [withMemByte_unreadable hv] at h
    exact .inr ⟨rfl, by cases h; rfl⟩

theorem execLdi_cases {a b : Byte} {s t : State} (h : execLdi a b s = .next t) :
    (∃ i : Fin Config.numRegs, a.toNat = i.val ∧ t = s.writeReg i b) ∨
    (7 < a.toNat ∧ t = s.raise (.outOfBounds s.pc opcLdi a.toNat)) := by
  obtain ⟨i, hi, h⟩ | h := withRegister_cases h
  · cases h; exact .inl ⟨i, hi, rfl⟩
  · exact .inr h

theorem execPrn_cases {a : Byte} {s t : State} (h : execPrn a s = .next t) :
    (∃ i : Fin Config.numRegs, a.toNat = i.val ∧ t = s.emit (s.readReg i)) ∨
    (7 < a.toNat ∧ t = s.raise (.outOfBounds s.pc opcPrn a.toNat)) := by
  obtain ⟨i, hi, h⟩ | h := withRegister_cases h
  · cases h; exact .inl ⟨i, hi, rfl⟩
  · exact .inr h

/-- ADD, SUB and MUL at once; `op` and `f` as the meaning passes them. -/
theorem arithmetic_cases {op : Byte} {f : Int → Int → Int} {a b : Byte} {s t : State}
    (h : arithmetic op f a b s = .next t) :
    (∃ i j : Fin Config.numRegs, a.toNat = i.val ∧ b.toNat = j.val ∧
      t = s.writeReg i (wrapToByte (f (s.readReg i).toNat (s.readReg j).toNat))) ∨
    (7 < a.toNat ∧ t = s.raise (.outOfBounds s.pc op a.toNat)) ∨
    (a.toNat ≤ 7 ∧ 7 < b.toNat ∧ t = s.raise (.outOfBounds s.pc op b.toNat)) := by
  obtain ⟨i, hi, h⟩ | h := withRegister_cases h
  · obtain ⟨j, hj, h⟩ | ⟨hb, h⟩ := withRegister_cases h
    · cases h; exact .inl ⟨i, j, hi, hj, rfl⟩
    · exact .inr (.inr ⟨by have : i.val < 8 := i.isLt; omega, hb, h⟩)
  · exact .inr (.inl h)

theorem arithmetic_legal {op : Byte} {f : Int → Int → Int} {a b : Byte} {s : State} {i j : Fin Config.numRegs}
    (hi : a.toNat = i.val) (hj : b.toNat = j.val) :
    arithmetic op f a b s =
      .next (s.writeReg i (wrapToByte (f (s.readReg i).toNat (s.readReg j).toNat))) := by
  simp [arithmetic, withRegister_legal hi, withRegister_legal hj]

theorem execPush_cases {a : Byte} {s t : State} (h : execPush a s = .next t) :
    (∃ i : Fin Config.numRegs, a.toNat = i.val ∧ t = s.pushByte (s.decrementSp.readReg i)) ∨
    (7 < a.toNat ∧ t = s.raise (.outOfBounds s.pc opcPush a.toNat)) := by
  obtain ⟨i, hi, h⟩ | h := withRegister_cases h
  · cases h; exact .inl ⟨i, hi, rfl⟩
  · exact .inr h

theorem execPop_cases {a : Byte} {s t : State} (h : execPop a s = .next t) :
    (∃ (i : Fin Config.numRegs) (v : Byte), a.toNat = i.val ∧ s.memRead s.sp.toNat = some v ∧
      t = (s.writeReg i v).incrementSp) ∨
    (7 < a.toNat ∧ t = s.raise (.outOfBounds s.pc opcPop a.toNat)) ∨
    (a.toNat ≤ 7 ∧ s.memRead s.sp.toNat = none ∧ t = s.raise (.uninitializedMemoryAccess s.pc s.sp.toNat)) := by
  obtain ⟨i, hi, h⟩ | h := withRegister_cases h
  · obtain ⟨v, hv, h⟩ | ⟨hn, h⟩ := withMemByte_cases h
    · cases h; exact .inl ⟨i, v, hi, hv, rfl⟩
    · exact .inr (.inr ⟨by have : i.val < 8 := i.isLt; omega, hn, h⟩)
  · exact .inr (.inl h)

theorem execJmp_cases {a : Byte} {s t : State} (h : execJmp a s = .next t) :
    (∃ i : Fin Config.numRegs, a.toNat = i.val ∧ t = s.redirectTo (s.readReg i)) ∨
    (7 < a.toNat ∧ t = s.raise (.outOfBounds s.pc opcJmp a.toNat)) := by
  obtain ⟨i, hi, h⟩ | h := withRegister_cases h
  · cases h; exact .inl ⟨i, hi, rfl⟩
  · exact .inr h

theorem State.returnAddress_eq (s : State) : s.returnAddress = s.pc + 2 := by
  have : operandCount opcCall = 1 := by decide
  simp [State.returnAddress, this]

/-- CALL with a return address that fits a byte. -/
theorem execCall_legal {a : Byte} {s : State} {i : Fin Config.numRegs} (hi : a.toNat = i.val)
    (hp : s.pc + 2 ≤ 0xFF) :
    execCall a s = .next ((s.pushByte (BitVec.ofNat 8 (s.pc + 2))).redirectTo
      ((s.pushByte (BitVec.ofNat 8 (s.pc + 2))).readReg i)) := by
  rw [execCall, withRegister_legal hi, if_neg (by rw [State.returnAddress_eq]; omega), State.returnAddress_eq]

theorem execCall_cases {a : Byte} {s t : State} (h : execCall a s = .next t) :
    (∃ i : Fin Config.numRegs, a.toNat = i.val ∧ s.pc + 2 ≤ 0xFF ∧
      t = (s.pushByte (BitVec.ofNat 8 (s.pc + 2))).redirectTo
        ((s.pushByte (BitVec.ofNat 8 (s.pc + 2))).readReg i)) ∨
    (7 < a.toNat ∧ t = s.raise (.outOfBounds s.pc opcCall a.toNat)) ∨
    (a.toNat ≤ 7 ∧ 0xFF < s.pc + 2 ∧ t = s.raise (.outOfBounds s.pc opcCall (s.pc + 2))) := by
  obtain ⟨i, hi⟩ | ha := register_cases a
  · by_cases hp : s.pc + 2 ≤ 0xFF
    · rw [execCall_legal hi hp] at h
      cases h
      exact .inl ⟨i, hi, hp, rfl⟩
    · rw [execCall, withRegister_legal hi, if_pos (by rw [State.returnAddress_eq]; omega),
        State.returnAddress_eq] at h
      cases h
      exact .inr (.inr ⟨by have : i.val < 8 := i.isLt; omega, by omega, rfl⟩)
  · rw [execCall, withRegister_illegal ha] at h
    cases h
    exact .inr (.inl ⟨ha, rfl⟩)

theorem execRet_cases {s t : State} (h : execRet s = .next t) :
    (∃ v, s.memRead s.sp.toNat = some v ∧ t = (s.redirectTo v).incrementSp) ∨
    (s.memRead s.sp.toNat = none ∧ t = s.raise (.uninitializedMemoryAccess s.pc s.sp.toNat)) := by
  obtain ⟨v, hv, h⟩ | h := withMemByte_cases h
  · cases h; exact .inl ⟨v, hv, rfl⟩
  · exact .inr h

/-! ### What every meaning keeps -/

/-- A meaning raises a fault and changes nothing else, or leaves the run state alone, or halts. -/
theorem exec_run {i : Instr} {s t : State} (h : exec i s = .next t) :
    (∃ info, t = s.raise info ∧ info.pc = s.pc) ∨ t.run = s.run ∨ (i = .hlt ∧ t = s.halt) := by
  cases i with
  | ldi a b => obtain ⟨i, -, rfl⟩ | ⟨-, rfl⟩ := execLdi_cases h <;> first | exact .inr (.inl rfl) | exact .inl ⟨_, rfl, rfl⟩
  | prn a => obtain ⟨i, -, rfl⟩ | ⟨-, rfl⟩ := execPrn_cases h <;> first | exact .inr (.inl rfl) | exact .inl ⟨_, rfl, rfl⟩
  | add a b => obtain ⟨i, j, -, -, rfl⟩ | ⟨-, rfl⟩ | ⟨-, -, rfl⟩ := arithmetic_cases h <;> first | exact .inr (.inl rfl) | exact .inl ⟨_, rfl, rfl⟩
  | sub a b => obtain ⟨i, j, -, -, rfl⟩ | ⟨-, rfl⟩ | ⟨-, -, rfl⟩ := arithmetic_cases h <;> first | exact .inr (.inl rfl) | exact .inl ⟨_, rfl, rfl⟩
  | mul a b => obtain ⟨i, j, -, -, rfl⟩ | ⟨-, rfl⟩ | ⟨-, -, rfl⟩ := arithmetic_cases h <;> first | exact .inr (.inl rfl) | exact .inl ⟨_, rfl, rfl⟩
  | push a => obtain ⟨i, -, rfl⟩ | ⟨-, rfl⟩ := execPush_cases h <;> first | exact .inr (.inl rfl) | exact .inl ⟨_, rfl, rfl⟩
  | pop a => obtain ⟨i, v, -, -, rfl⟩ | ⟨-, rfl⟩ | ⟨-, -, rfl⟩ := execPop_cases h <;> first | exact .inr (.inl rfl) | exact .inl ⟨_, rfl, rfl⟩
  | jmp a => obtain ⟨i, -, rfl⟩ | ⟨-, rfl⟩ := execJmp_cases h <;> first | exact .inr (.inl rfl) | exact .inl ⟨_, rfl, rfl⟩
  | call a => obtain ⟨i, -, -, rfl⟩ | ⟨-, rfl⟩ | ⟨-, -, rfl⟩ := execCall_cases h <;> first | exact .inr (.inl rfl) | exact .inl ⟨_, rfl, rfl⟩
  | ret => obtain ⟨v, -, rfl⟩ | ⟨-, rfl⟩ := execRet_cases h <;> first | exact .inr (.inl rfl) | exact .inl ⟨_, rfl, rfl⟩
  | hlt => cases h; exact .inr (.inr ⟨rfl, rfl⟩)

end Sys2Proof.Machine
end

