-- ==== Sys2Proof/Laws/PerInstr.lean ====
section
/-! SUPPORT. Statements about every instruction, one lemma per constructor. -/

namespace Sys2Proof.Laws

/-- The first byte of the encoding is the opcode, and it is followed by as many operand bytes as its top two
bits say (30_encoding.md R50, R52, R58). -/
def EncodedForm.Statement (i : Instr) : Prop :=
  (encode i).head? = some i.opcode ∧ (encode i).length = 1 + operandCount i.opcode

/-- The form follows from the encoder's two parts. -/
theorem EncodedForm.holds (i : Instr) : EncodedForm.Statement i :=
  ⟨rfl, by simp [encode, Nat.add_comm]⟩

theorem EncodedForm.ldi (a b : Byte) : EncodedForm.Statement (.ldi a b) := EncodedForm.holds _
theorem EncodedForm.prn (a : Byte) : EncodedForm.Statement (.prn a) := EncodedForm.holds _
theorem EncodedForm.add (a b : Byte) : EncodedForm.Statement (.add a b) := EncodedForm.holds _
theorem EncodedForm.sub (a b : Byte) : EncodedForm.Statement (.sub a b) := EncodedForm.holds _
theorem EncodedForm.mul (a b : Byte) : EncodedForm.Statement (.mul a b) := EncodedForm.holds _
theorem EncodedForm.push (a : Byte) : EncodedForm.Statement (.push a) := EncodedForm.holds _
theorem EncodedForm.pop (a : Byte) : EncodedForm.Statement (.pop a) := EncodedForm.holds _
theorem EncodedForm.jmp (a : Byte) : EncodedForm.Statement (.jmp a) := EncodedForm.holds _
theorem EncodedForm.call (a : Byte) : EncodedForm.Statement (.call a) := EncodedForm.holds _
theorem EncodedForm.ret : EncodedForm.Statement .ret := EncodedForm.holds _
theorem EncodedForm.hlt : EncodedForm.Statement .hlt := EncodedForm.holds _

end Sys2Proof.Laws
end

