-- ==== Sys2Proof/Laws/Step.lean ====
section
/-! SUPPORT. Fetching and stepping, once: when the fetch of an instruction succeeds, how it fails, and what a
step in `Running` is. -/

namespace Sys2Proof.Machine

theorem step_running {s : State} (h : s.run = .running) : step s = loopPass s := by
  simp [step, h]

/-! ### Bytes at an address -/

@[simp] theorem bytesAt_nil (s : State) (addr : Nat) : bytesAt s addr [] = true := rfl

@[simp] theorem bytesAt_cons (s : State) (addr : Nat) (v : Byte) (vs : List Byte) :
    bytesAt s addr (v :: vs) = true ↔ s.memRead addr = some v ∧ bytesAt s (addr + 1) vs = true := by
  simp [bytesAt]

theorem bytesAt_of_memRead {s t : State} (h : ∀ x, t.memRead x = s.memRead x) (addr : Nat) (bytes : List Byte) :
    bytesAt t addr bytes = bytesAt s addr bytes := by
  induction bytes generalizing addr with
  | nil => rfl
  | cons v vs ih => simp [bytesAt, h, ih]

@[simp] theorem bytesAt_clearRedirect (s : State) (addr : Nat) (bytes : List Byte) :
    bytesAt s.clearRedirect addr bytes = bytesAt s addr bytes :=
  bytesAt_of_memRead (s := s) (t := s.clearRedirect) (fun _ => rfl) addr bytes

theorem bytesAt_append (s : State) (addr : Nat) (front rest : List Byte) :
    bytesAt s addr (front ++ rest) = true ↔
      bytesAt s addr front = true ∧ bytesAt s (addr + front.length) rest = true := by
  induction front generalizing addr with
  | nil => simp
  | cons v vs ih => simp [ih, and_assoc, Nat.add_assoc, Nat.add_comm 1]

/-! ### Fetching -/

theorem State.fetchByte_ok {s : State} {addr : Nat} {v : Byte} :
    s.fetchByte addr = .ok v ↔ s.memRead addr = some v := by
  unfold State.fetchByte
  split <;> simp_all

theorem State.fetchByte_error {s : State} {addr : Nat} {info : FaultInfo} :
    s.fetchByte addr = .error info ↔ s.memRead addr = none ∧ info = .uninitializedMemoryAccess s.pc addr := by
  unfold State.fetchByte
  cases s.memRead addr <;> simp [eq_comm]

theorem State.fetchOperands_ok {s : State} {n addr : Nat} {vs : List Byte} :
    s.fetchOperands addr n = .ok vs ↔ vs.length = n ∧ bytesAt s addr vs = true := by
  induction n generalizing addr vs with
  | zero => cases vs <;> simp [State.fetchOperands]
  | succ n ih =>
    unfold State.fetchOperands
    cases h : s.fetchByte addr with
    | error info =>
      have := (State.fetchByte_error.1 h).1
      cases vs <;> simp [this]
    | ok v =>
      have hv := State.fetchByte_ok.1 h
      cases h' : s.fetchOperands (addr + 1) n with
      | error info =>
        cases vs with
        | nil => simp
        | cons w ws =>
          simp only [reduceCtorEq, List.length_cons, Nat.add_right_cancel_iff, bytesAt_cons, false_iff]
          rintro ⟨hl, -, hb⟩
          rw [ih.2 ⟨hl, hb⟩] at h'
          cases h'
      | ok us =>
        obtain ⟨hl, hb⟩ := ih.1 h'
        constructor
        · intro e
          cases e
          simp [hl, hv, hb]
        · intro ⟨hl', hb'⟩
          cases vs with
          | nil => simp at hl'
          | cons w ws =>
            simp only [List.length_cons, Nat.add_right_cancel_iff, bytesAt_cons] at hl' hb'
            rw [ih.2 ⟨hl', hb'.2⟩] at h'
            cases h'
            rw [hv] at hb'
            cases hb'.1
            rfl

/-- The first operand read that fails gives the fault (40_execution_loop.md R73). -/
theorem State.fetchOperands_error {s : State} {n addr : Nat} {info : FaultInfo}
    (h : s.fetchOperands addr n = .error info) :
    ∃ k, k < n ∧ s.memRead (addr + k) = none ∧ (∀ j, j < k → s.memRead (addr + j) ≠ none) ∧
      info = .uninitializedMemoryAccess s.pc (addr + k) := by
  induction n generalizing addr with
  | zero => cases h
  | succ n ih =>
    unfold State.fetchOperands at h
    split at h
    · cases h
      obtain ⟨hn, hi⟩ := State.fetchByte_error.1 ‹s.fetchByte addr = .error info›
      exact ⟨0, by omega, hn, by omega, hi⟩
    · rename_i v hv
      split at h
      · cases h
        obtain ⟨k, hk, hn, hb, hi⟩ := ih ‹s.fetchOperands (addr + 1) n = .error info›
        have shift : ∀ j, addr + 1 + j = addr + (j + 1) := by omega
        refine ⟨k + 1, by omega, by rw [← shift]; exact hn, ?_, by rw [hi, shift]⟩
        intro j hj
        cases j with
        | zero => simp [State.fetchByte_ok.1 hv]
        | succ j => rw [← shift]; exact hb j (by omega)
      · cases h

/-- The fetch answers an instruction exactly when memory holds its bytes at the pc. -/
theorem State.fetchInstr_ok {s : State} {i : Instr} :
    s.fetchInstr = .ok i ↔ bytesAt s s.pc (encode i) = true := by
  constructor
  · intro h
    unfold State.fetchInstr at h
    split at h
    · cases h
    · rename_i op hop
      have hop := State.fetchByte_ok.1 hop
      split at h
      · cases h
        simp_all [encode, Instr.opcode, Instr.operandBytes]
      · split at h
        · cases h
        · rename_i operands hops
          obtain ⟨hl, hb⟩ := State.fetchOperands_ok.1 hops
          split at h
          · rename_i i' rest hd
            cases h
            have ht := takeBytes_append operands []
            rw [hl, List.append_nil] at ht
            simp only [decode, if_neg ‹¬op = opcHlt›, ht] at hd
            split at hd
            · cases hd
              have := dispatchTable_sound ‹_›
              simp [encode, ← this.1, ← this.2.1, hop, hb]
            · cases hd
          · cases h
  · intro h
    obtain ⟨hop, hb⟩ := (bytesAt_cons _ _ _ _).1 h
    unfold State.fetchInstr
    simp only [State.fetchByte_ok.2 hop]
    by_cases hh : i = .hlt
    · subst hh
      rfl
    · have ht := takeBytes_append i.operandBytes []
      rw [List.append_nil] at ht
      simp only [if_neg (opcode_ne_hlt hh), operandCount_opcode, State.fetchOperands_ok.2 ⟨rfl, hb⟩, decode, ht,
        dispatchTable_complete i hh]

/-- The ways a fetch faults: the opcode byte, an operand byte, or no such opcode
(40_execution_loop.md R77 steps 1, 3 and 4). -/
theorem State.fetchInstr_error {s : State} {info : FaultInfo} (h : s.fetchInstr = .error info) :
    (s.memRead s.pc = none ∧ info = .uninitializedMemoryAccess s.pc s.pc) ∨
    (∃ op k, s.memRead s.pc = some op ∧ op ≠ opcHlt ∧ k < operandCount op ∧ s.memRead (s.pc + 1 + k) = none ∧
      (∀ j, j < k → s.memRead (s.pc + 1 + j) ≠ none) ∧
      info = .uninitializedMemoryAccess s.pc (s.pc + 1 + k)) ∨
    (∃ op operands, s.memRead s.pc = some op ∧ op ∉ assignedOpcodes ∧ operands.length = operandCount op ∧
      bytesAt s (s.pc + 1) operands = true ∧ info = .unsupportedOperation s.pc op) := by
  unfold State.fetchInstr at h
  split at h
  · cases h
    exact .inl (State.fetchByte_error.1 ‹_›)
  · rename_i op hop
    have hop := State.fetchByte_ok.1 hop
    split at h
    · cases h
    · rename_i hh
      split at h
      · cases h
        obtain ⟨k, hk, hn, hb, hi⟩ := State.fetchOperands_error ‹_›
        exact .inr (.inl ⟨op, k, hop, hh, hk, hn, hb, hi⟩)
      · rename_i operands hops
        obtain ⟨hl, hb⟩ := State.fetchOperands_ok.1 hops
        split at h
        · cases h
        · rename_i e hd
          cases h
          have ht := takeBytes_append operands []
          rw [hl, List.append_nil] at ht
          simp only [decode, if_neg hh, ht] at hd
          split at hd
          · cases hd
          · exact .inr (.inr ⟨op, operands, hop, (dispatchTable_none_iff op operands hl hh).1 ‹_›, hl, hb, rfl⟩)

/-- The converse for an unassigned opcode whose operand bytes are readable. -/
theorem State.fetchInstr_unassigned {s : State} {op : Byte} {operands : List Byte} (hop : s.memRead s.pc = some op)
    (hu : op ∉ assignedOpcodes) (hl : operands.length = operandCount op)
    (hb : bytesAt s (s.pc + 1) operands = true) : s.fetchInstr = .error (.unsupportedOperation s.pc op) := by
  have hh : op ≠ opcHlt := fun e => hu (by simp [e, assignedOpcodes])
  have ht := takeBytes_append operands []
  rw [hl, List.append_nil] at ht
  simp only [State.fetchInstr, State.fetchByte_ok.2 hop, if_neg hh, State.fetchOperands_ok.2 ⟨hl, hb⟩, decode, ht,
    (dispatchTable_none_iff op operands hl hh).2 hu]

/-! ### One pass of the loop -/

theorem loopPass_fetched {s t : State} {i : Instr} (hf : bytesAt s s.pc (encode i) = true)
    (he : exec i s.clearRedirect = .next t) : loopPass s = .next (t.pcUpdate (operandCount i.opcode)) := by
  have : s.clearRedirect.fetchInstr = .ok i := State.fetchInstr_ok.2 (by simpa using hf)
  simp [loopPass, this, he]

theorem loopPass_fetchFault {s : State} {info : FaultInfo} (hf : s.clearRedirect.fetchInstr = .error info) :
    loopPass s = .next (s.clearRedirect.raise info) := by
  simp [loopPass, hf]

/-- Every way a pass can answer a next state. -/
theorem loopPass_cases {s t : State} (h : loopPass s = .next t) :
    (∃ info, s.clearRedirect.fetchInstr = .error info ∧ t = s.clearRedirect.raise info) ∨
    (∃ i u, bytesAt s s.pc (encode i) = true ∧ exec i s.clearRedirect = .next u ∧
      t = u.pcUpdate (operandCount i.opcode)) := by
  unfold loopPass at h
  split at h
  · cases h
    exact .inl ⟨_, ‹_›, rfl⟩
  · rename_i i hi
    split at h
    · cases h
      exact .inr ⟨i, _, by simpa using State.fetchInstr_ok.1 hi, ‹_›, rfl⟩
    · cases h
    · cases h

/-- A step that answers a next state started in `Running`. -/
theorem step_next_running {s t : State} (h : step s = .next t) : s.run = .running ∧ loopPass s = .next t := by
  unfold step at h
  split at h
  · exact ⟨‹_›, h⟩
  · cases h
  · cases h

end Sys2Proof.Machine
end

