-- ==== Sys2Proof/Tests/Slice0.lean ====
section
/-! SUPPORT. Tests: well-formedness, decoding of words written out from the spec, one-step tests whose expected
results are the spec's own (95_test_vectors.md and the worked examples of the instruction rules), and for every
obligation with hypotheses a concrete state and operands that meet them. -/

namespace Sys2Proof.Tests

open Sys2Proof Sys2Proof.Machine

/-- The state after reset with these bytes placed from `addr` upward and the pc there. -/
def codeAt (addr : Nat) (bytes : List Byte) : State := { State.reset.placeBytes addr bytes with pc := addr }

/-- `codeAt` with one register set. -/
def atReg (addr : Nat) (bytes : List Byte) (i : Fin 8) (v : Byte) : State := (codeAt addr bytes).writeReg i v

/-- The next state, or the state itself where there is none. -/
def after (s : State) : State :=
  match step s with
  | .next t => t
  | .fault _ => s
  | .refused _ => s

/-- The next state of a meaning. -/
def execAfter (i : Instr) (s : State) : State :=
  match exec i s with
  | .next t => t
  | .fault _ => s
  | .refused _ => s

/-! ### Well-formedness (30_encoding.md R54): one ill-formed term for each check -/

theorem test_wellFormed_ldi_refuses_8 : (Instr.ldi 8 0).wellFormed = false := by decide
theorem test_wellFormed_ldi_immediate_unchecked : (Instr.ldi 7 255).wellFormed = true := by decide
theorem test_wellFormed_prn_refuses_9 : (Instr.prn 9).wellFormed = false := by decide
theorem test_wellFormed_add_refuses_a : (Instr.add 8 0).wellFormed = false := by decide
theorem test_wellFormed_add_refuses_b : (Instr.add 0 9).wellFormed = false := by decide
theorem test_wellFormed_sub_refuses_a : (Instr.sub 255 0).wellFormed = false := by decide
theorem test_wellFormed_sub_refuses_b : (Instr.sub 0 9).wellFormed = false := by decide
theorem test_wellFormed_mul_refuses_a : (Instr.mul 10 11).wellFormed = false := by decide
theorem test_wellFormed_mul_refuses_b : (Instr.mul 1 11).wellFormed = false := by decide
theorem test_wellFormed_push_refuses_8 : (Instr.push 8).wellFormed = false := by decide
theorem test_wellFormed_pop_refuses_8 : (Instr.pop 8).wellFormed = false := by decide
theorem test_wellFormed_jmp_refuses_8 : (Instr.jmp 8).wellFormed = false := by decide
theorem test_wellFormed_call_refuses_9 : (Instr.call 9).wellFormed = false := by decide

/-! ### Decoding: bytes written out bit by bit from 30_encoding.md R53 and R56 -/

theorem test_decode_ldi : decode [0b10000010, 0b00000000, 0b00001000] = .ok (.ldi 0 8, []) := by decide
theorem test_decode_prn : decode [0b01000111, 0b00000011] = .ok (.prn 3, []) := by decide
theorem test_decode_add : decode [0b10100000, 0b00000000, 0b00000001] = .ok (.add 0 1, []) := by decide
theorem test_decode_sub : decode [0b10100001, 0b00000111, 0b00000000] = .ok (.sub 7 0, []) := by decide
theorem test_decode_mul : decode [0b10100010, 0b00000101, 0b00000110] = .ok (.mul 5 6, []) := by decide
theorem test_decode_push : decode [0b01000101, 0b00000111] = .ok (.push 7, []) := by decide
theorem test_decode_pop : decode [0b01000110, 0b00000001] = .ok (.pop 1, []) := by decide
theorem test_decode_jmp : decode [0b01010100, 0b00000010] = .ok (.jmp 2, []) := by decide
theorem test_decode_call : decode [0b01010000, 0b00000001] = .ok (.call 1, []) := by decide
theorem test_decode_ret : decode [0b00010001, 0b00000001] = .ok (.ret, [1]) := by decide
theorem test_decode_hlt : decode [0b00000001] = .ok (.hlt, []) := by decide
/-- 0x00 is not a NOP (30_encoding.md R59). -/
theorem test_decode_zero_unsupported : decode [0x00] = .error (.unsupportedOpcode 0) := by decide
/-- `N` = 0b11 fetches no operand (30_encoding.md R52). -/
theorem test_decode_ff_unsupported : decode [0xFF] = .error (.unsupportedOpcode 0xFF) := by decide
theorem test_decode_missing_operand : decode [0x83, 0x00] = .error (.missingOperand 0x83) := by decide
theorem test_tableWord_ldi : decodeTableWord 24 0x080082 = some (.ldi 0 8) := by decide
theorem test_tableWord_short : decodeTableWord 8 0x82 = some (.ldi 0 0) := by decide
/-- A register operand above 7 decodes and is not masked (10_state.md R14). -/
theorem test_decode_unmasked : decode [0x45, 0x08] = .ok (.push 8, []) := by decide
theorem test_assembly_ldi : (Instr.ldi 0 200).toAssembly = "LDI R0,200" := by decide
theorem test_assembly_add : (Instr.add 0 1).toAssembly = "ADD R0,R1" := by decide

/-! ### One step of each instruction, from 95_test_vectors.md section 2 -/

theorem test_ldi_sets_stack_pointer : (after (codeAt 0 [0x82, 0x07, 0x10])).sp = 0x10 ∧
    (after (codeAt 0 [0x82, 0x07, 0x10])).pc = 3 := by decide
theorem test_ldi_index_8 : (after (codeAt 0 [0x82, 0x08, 0x00])).run = .faulted (.outOfBounds 0 0x82 8) := by decide
theorem test_prn_reset_sp : (after (codeAt 0 [0x47, 0x07])).out = [244] ∧ (after (codeAt 0 [0x47, 0x07])).pc = 2 := by decide
theorem test_prn_index_9 : (after (codeAt 0 [0x47, 0x09])).run = .faulted (.outOfBounds 0 0x47 9) := by decide
theorem test_add_wraps : (after ((atReg 0 [0xA0, 0x00, 0x01] 0 200).writeReg 1 100)).readReg 0 = 44 := by decide
theorem test_add_same_register : (after (atReg 0 [0xA0, 0x00, 0x00] 0 200)).readReg 0 = 144 := by decide
theorem test_sub_wraps : (after ((atReg 0 [0xA1, 0x00, 0x01] 0 5).writeReg 1 10)).readReg 0 = 251 := by decide
theorem test_sub_stack_pointer : (after (atReg 0 [0xA1, 0x07, 0x00] 0 4)).sp = 0xF0 := by decide
theorem test_mul_wraps : (after ((atReg 0 [0xA2, 0x00, 0x01] 0 200).writeReg 1 100)).readReg 0 = 32 := by decide
theorem test_mul_a_checked_first :
    (after (codeAt 0 [0xA2, 0x0A, 0x0B])).run = .faulted (.outOfBounds 0 0xA2 10) := by decide
theorem test_push_r7 : (after (codeAt 0 [0x45, 0x07])).sp = 0xF3 ∧
    (after (codeAt 0 [0x45, 0x07])).memRead 0xF3 = some 0xF3 := by decide
theorem test_push_wraps : (after ((atReg 1 [0x45, 0x00] 7 0).writeReg 0 5)).sp = 0xFF ∧
    (after ((atReg 1 [0x45, 0x00] 7 0).writeReg 0 5)).memRead 0xFF = some 5 := by decide
theorem test_pop_r7 : (after ((atReg 0 [0x46, 0x07] 7 0xF3).memWrite 0xF3 0x80)).sp = 0x81 := by decide
theorem test_pop_empty :
    (after (codeAt 0 [0x46, 0x00])).run = .faulted (.uninitializedMemoryAccess 0 0xF4) := by decide
theorem test_jmp_target : (after (atReg 0x19 [0x54, 0x02] 2 0x12)).pc = 0x12 ∧
    (after (atReg 0x19 [0x54, 0x02] 2 0x12)).redirect = false := by decide
theorem test_jmp_index_8 : (after (codeAt 0 [0x54, 0x08])).run = .faulted (.outOfBounds 0 0x54 8) := by decide
theorem test_call_pushes : (after (atReg 9 [0x50, 0x01] 1 0x0E)).memRead 0xF3 = some 0x0B ∧
    (after (atReg 9 [0x50, 0x01] 1 0x0E)).pc = 0x0E ∧ (after (atReg 9 [0x50, 0x01] 1 0x0E)).sp = 0xF3 := by decide
theorem test_call_r7 : (after (codeAt 0 [0x50, 0x07])).pc = 0xF3 ∧
    (after (codeAt 0 [0x50, 0x07])).memRead 0xF3 = some 0x02 := by decide
theorem test_ret_pops : (after ((atReg 0x10 [0x11] 7 0xF3).memWrite 0xF3 0x0B)).pc = 0x0B ∧
    (after ((atReg 0x10 [0x11] 7 0xF3).memWrite 0xF3 0x0B)).sp = 0xF4 := by decide
theorem test_ret_empty : (after (codeAt 0 [0x11])).run = .faulted (.uninitializedMemoryAccess 0 0xF4) := by decide
theorem test_hlt_keeps_pc : (after (codeAt 5 [0x01])).run = .halted ∧ (after (codeAt 5 [0x01])).pc = 5 := by decide
theorem test_hlt_at_top : (after (codeAt 0xFF [0x01])).run = .halted := by decide
/-- The operand fetch fails before the dispatch lookup (95_test_vectors.md 2.6). -/
theorem test_fetch_before_dispatch :
    (after (codeAt 0 [0x83, 0x00])).run = .faulted (.uninitializedMemoryAccess 0 2) := by decide
/-- The pc does not wrap: LDI in the last three cells (95_test_vectors.md 2.6). -/
theorem test_pc_does_not_wrap : (after (codeAt 0xFD [0x82, 0x01, 0x07])).pc = 0x100 := by decide
theorem test_render : renderOut [7, 244] = [0x37, 0x0A, 0x32, 0x34, 0x34, 0x0A] := by decide
theorem test_withFetchWord : (after (State.reset.withFetchWord 24 0x080082)).readReg 0 = 8 := by decide
theorem test_observe_after_prn : (after (codeAt 0 [0x47, 0x07])).observe = { out := [244], status := .running } := by
  decide
theorem test_fault_is_not_a_good_end :
    (after (codeAt 0 [0x11])).safe = false ∧ (after (codeAt 0 [0x11])).endedWell = false ∧
    (after (codeAt 0 [0x01])).endedWell = true := by decide

/-! ### Witnesses: a concrete state and operands meeting the hypotheses of each obligation, clause by clause -/

theorem witness_LoadWritesTheImageAndNothingElse :
    (List.replicate 256 (1 : Byte)).length ≤ 256 ∧ 255 < (List.replicate 256 (1 : Byte)).length := by
  simp only [List.length_replicate]; omega
theorem witness_TooLongImageRefusedEmptyImageFaults : 256 < (List.replicate 257 (1 : Byte)).length := by
  simp only [List.length_replicate]; omega
theorem witness_MemReadRaisesUnlessValid :
    (256 > 0xFF) ∧ State.reset.memRead 0xFF = none ∧ (codeAt 0xFF [1]).memRead 0xFF = some 1 := by decide
theorem witness_ValidBitsAreNeverCleared :
    step (codeAt 0 [0x01]) = .next (after (codeAt 0 [0x01])) ∧ (codeAt 0 [0x01]).memRead 0 ≠ none := by
  exact ⟨rfl, by decide⟩
theorem witness_OnlyPushAndCallStore_push :
    step (codeAt 0 [0x45, 0x00]) = .next (after (codeAt 0 [0x45, 0x00])) ∧
    (after (codeAt 0 [0x45, 0x00])).memRead 0xF3 ≠ (codeAt 0 [0x45, 0x00]).memRead 0xF3 := by
  exact ⟨rfl, by decide⟩
theorem witness_OnlyPushAndCallStore_call :
    step (codeAt 0 [0x50, 0x00]) = .next (after (codeAt 0 [0x50, 0x00])) ∧
    (after (codeAt 0 [0x50, 0x00])).memRead 0xF3 ≠ (codeAt 0 [0x50, 0x00]).memRead 0xF3 := by
  exact ⟨rfl, by decide⟩
theorem witness_OnlyListedRegistersReadAndWritten :
    (7 : Fin 8) ∉ registersRead (.add 0 1) ∧
    exec (.add 0 1) State.reset = .next (execAfter (.add 0 1) State.reset) := by
  exact ⟨by decide, rfl⟩
theorem witness_DecodeIsTheInverseOfEncode : decode [0x50, 0xFF, 0x01] = .ok (.call 0xFF, [0x01]) := by decide
theorem witness_ExactlyElevenOpcodesDecode :
    ([3, 4] : List Byte).length = operandCount 0xA2 ∧ ([] : List Byte).length = operandCount 0xFF ∧
    (0xA2 : Byte) ∈ ([0x82, 0x47, 0xA0, 0xA1, 0xA2, 0x45, 0x46, 0x54, 0x50, 0x11, 0x01] : List Byte) ∧
    (0xFF : Byte) ∉ ([0x82, 0x47, 0xA0, 0xA1, 0xA2, 0x45, 0x46, 0x54, 0x50, 0x11, 0x01] : List Byte) := by decide
/-- The three clauses: HLT stops, JMP redirects, LDI advances. -/
theorem witness_StepRunsTheDecodedInstruction :
    (codeAt 0 [0x01]).run = .running ∧ bytesAt (codeAt 0 [0x01]) 0 [0x01] = true ∧ decode [0x01] = .ok (.hlt, []) ∧
    (execAfter .hlt (codeAt 0 [0x01])).run ≠ .running ∧
    bytesAt (codeAt 0 [0x54, 0x00]) 0 [0x54, 0x00] = true ∧ decode [0x54, 0x00] = .ok (.jmp 0, []) ∧
    (execAfter (.jmp 0) (codeAt 0 [0x54, 0x00])).redirect = true ∧
    bytesAt (codeAt 0xFD [0x82, 0x07, 0xFF]) 0xFD [0x82, 0x07, 0xFF] = true ∧
    decode [0x82, 0x07, 0xFF] = .ok (.ldi 7 0xFF, []) ∧
    (execAfter (.ldi 7 0xFF) (codeAt 0xFD [0x82, 0x07, 0xFF])).redirect = false := by decide
theorem witness_PcIsSetOrAdvancedNeverBoth_transfer :
    (codeAt 0xFE [0x54, 0x07]).run = .running ∧
    bytesAt (codeAt 0xFE [0x54, 0x07]) (codeAt 0xFE [0x54, 0x07]).pc (encode (.jmp 7)) = true ∧
    exec (.jmp 7) { codeAt 0xFE [0x54, 0x07] with redirect := false } = .next (execAfter (.jmp 7) (codeAt 0xFE [0x54, 0x07])) ∧
    (execAfter (.jmp 7) (codeAt 0xFE [0x54, 0x07])).run = .running := by
  exact ⟨by decide, by decide, rfl, by decide⟩
theorem witness_PcIsSetOrAdvancedNeverBoth_advance :
    (codeAt 0xFE [0x47, 0x07]).run = .running ∧
    bytesAt (codeAt 0xFE [0x47, 0x07]) (codeAt 0xFE [0x47, 0x07]).pc (encode (.prn 7)) = true ∧
    exec (.prn 7) { codeAt 0xFE [0x47, 0x07] with redirect := false } = .next (execAfter (.prn 7) (codeAt 0xFE [0x47, 0x07])) ∧
    (execAfter (.prn 7) (codeAt 0xFE [0x47, 0x07])).run = .running := by
  exact ⟨by decide, by decide, rfl, by decide⟩
theorem witness_PcAfterEveryStep :
    step (codeAt 0 [0x01]) = .next (after (codeAt 0 [0x01])) ∧ (after (codeAt 0 [0x01])).run ≠ .running ∧
    step (codeAt 0xFE [0x47, 0x07]) = .next (after (codeAt 0xFE [0x47, 0x07])) ∧
    (after (codeAt 0xFE [0x47, 0x07])).run = .running := by
  exact ⟨rfl, by decide, rfl, by decide⟩
/-- The bound is reached: LDI in the last three cells leaves the pc at 0x100. -/
theorem witness_PcNeverPassesOneBeyondMemory :
    step (codeAt 0xFD [0x82, 0x01, 0x07]) = .next (after (codeAt 0xFD [0x82, 0x01, 0x07])) ∧
    (after (codeAt 0xFD [0x82, 0x01, 0x07])).run = .running ∧ (after (codeAt 0xFD [0x82, 0x01, 0x07])).pc = 0x100 := by
  exact ⟨rfl, by decide, by decide⟩
theorem witness_HaltsExactlyOnTheHltByte :
    step (codeAt 0xFF [0x01]) = .next (after (codeAt 0xFF [0x01])) ∧ (after (codeAt 0xFF [0x01])).run = .halted ∧
    (codeAt 0xFF [0x01]).run = .running ∧ (codeAt 0xFF [0x01]).memRead (codeAt 0xFF [0x01]).pc = some 0x01 := by
  exact ⟨rfl, by decide, by decide, by decide⟩
theorem witness_RunsHaltFaultOrNeverEnd :
    State.reset.run = .running ∧ (after (codeAt 0 [0x01])).run = .halted ∧
    (after (codeAt 0 [0x00])).run = .faulted (.unsupportedOperation 0 0) := by decide
theorem witness_OpcodeFetchFaults :
    ({ State.reset with pc := 0x100 } : State).run = .running ∧ ({ State.reset with pc := 0x100 } : State).pc > 0xFF ∧
    ({ State.reset with pc := 0xFF } : State).memRead 0xFF = none := by decide
/-- Each clause, at the top of memory where it can be. -/
theorem witness_OperandFetchFaults :
    (codeAt 0 [0x47]).run = .running ∧ (codeAt 0 [0x47]).memRead 0 = some 0x47 ∧ (0x47 : Byte) ≠ opcHlt ∧
    1 ≤ operandCount 0x47 ∧ (codeAt 0 [0x47]).memRead 1 = none ∧
    (codeAt 0xFE [0x83, 0x00]).memRead 0xFE = some 0x83 ∧ operandCount 0x83 = 2 ∧
    (codeAt 0xFE [0x83, 0x00]).memRead 0xFF ≠ none ∧ (codeAt 0xFE [0x83, 0x00]).memRead 0x100 = none ∧
    (codeAt 0xFF [0x47]).memRead 0xFF = some 0x47 ∧ (codeAt 0xFF [0x47]).pc = 0xFF ∧
    (codeAt 0xFF [0x11]).memRead 0xFF = some 0x11 ∧ operandsReadable (codeAt 0xFF [0x11]) 0x11 = true ∧
    (codeAt 0xFF [0x11]).sp.toNat ≠ 0x100 := by decide
theorem witness_UnassignedOpcodeFaults :
    (codeAt 0xFF [0xFF]).run = .running ∧ (codeAt 0xFF [0xFF]).memRead 0xFF = some 0xFF ∧
    (0xFF : Byte) ∉ ([0x82, 0x47, 0xA0, 0xA1, 0xA2, 0x45, 0x46, 0x54, 0x50, 0x11, 0x01] : List Byte) ∧
    operandsReadable (codeAt 0xFF [0xFF]) 0xFF = true ∧ operandsReadable (codeAt 0xFD [0x83, 0x00, 0x00]) 0x83 = true := by
  decide
theorem witness_RegisterIndexAboveSevenFaults :
    7 < (8 : Byte).toNat ∧ (7 : Byte).toNat ≤ 7 ∧ 7 < (255 : Byte).toNat := by decide
theorem witness_CallReturnAddressFaults :
    (7 : Byte).toNat ≤ 7 ∧ 0xFF < (codeAt 0xFE [0x50, 0x07]).pc + 2 ∧ (codeAt 0xFE [0x50, 0x07]).run = .running ∧
    bytesAt (codeAt 0xFE [0x50, 0x07]) (codeAt 0xFE [0x50, 0x07]).pc (encode (.call 7)) = true ∧
    (codeAt 0xFD [0x50, 0x07]).run = .running ∧
    bytesAt (codeAt 0xFD [0x50, 0x07]) (codeAt 0xFD [0x50, 0x07]).pc (encode (.call 7)) = true := by decide
theorem witness_PoppingAnUnwrittenCellFaults :
    State.reset.memRead State.reset.sp.toNat = none ∧ (7 : Byte).toNat ≤ 7 := by decide
theorem witness_FaultingStepChangesOnlyTheRunState :
    step (codeAt 0 [0x46, 0x00]) = .next (after (codeAt 0 [0x46, 0x00])) ∧
    (after (codeAt 0 [0x46, 0x00])).run = .faulted (.uninitializedMemoryAccess 0 0xF4) := by
  exact ⟨rfl, by decide⟩
theorem witness_FaultsComeOnlyFromTheirCauses_unsupported :
    step (codeAt 0 [0x00]) = .next (after (codeAt 0 [0x00])) ∧
    (after (codeAt 0 [0x00])).run = .faulted (.unsupportedOperation 0 0) := by
  exact ⟨rfl, by decide⟩
theorem witness_FaultsComeOnlyFromTheirCauses_uninitialized :
    step (codeAt 0 [0x11]) = .next (after (codeAt 0 [0x11])) ∧
    (after (codeAt 0 [0x11])).run = .faulted (.uninitializedMemoryAccess 0 0xF4) := by
  exact ⟨rfl, by decide⟩
theorem witness_FaultsComeOnlyFromTheirCauses_outOfBounds :
    step (codeAt 0xFE [0x50, 0x00]) = .next (after (codeAt 0xFE [0x50, 0x00])) ∧
    (after (codeAt 0xFE [0x50, 0x00])).run = .faulted (.outOfBounds 0xFE 0x50 0x100) ∧
    step (codeAt 0 [0xA0, 0x07, 0x08]) = .next (after (codeAt 0 [0xA0, 0x07, 0x08])) ∧
    (after (codeAt 0 [0xA0, 0x07, 0x08])).run = .faulted (.outOfBounds 0 0xA0 8) := by
  exact ⟨rfl, by decide, rfl, by decide⟩
theorem witness_LdiLoadsTheImmediate : (7 : Byte).toNat = (7 : Fin 8).val := by decide
theorem witness_PrnEmitsTheRegister : (0 : Byte).toNat = (0 : Fin 8).val := by decide
theorem witness_ArithmeticIsExactModulo256 :
    (0 : Byte).toNat = (0 : Fin 8).val ∧ (7 : Byte).toNat = (7 : Fin 8).val := by decide
theorem witness_SignedReadingGivesTheSameBytes :
    (7 : Byte).toNat = (7 : Fin 8).val ∧ (7 : Byte).toNat = (7 : Fin 8).val := by decide
theorem witness_PushStoresBelowTheStackPointer : (7 : Byte).toNat = (7 : Fin 8).val := by decide
/-- Both clauses, at the wrap of the stack pointer. -/
theorem witness_PopLoadsFromTheStackPointer :
    (0 : Byte).toNat = (0 : Fin 8).val ∧ (0 : Fin 8) ≠ 7 ∧ (7 : Byte).toNat = (7 : Fin 8).val ∧
    (atReg 0xFF [0x05] 7 0xFF).memRead (atReg 0xFF [0x05] 7 0xFF).sp.toNat = some 0x05 := by decide
theorem witness_JmpSetsThePc : (7 : Byte).toNat = (7 : Fin 8).val := by decide
theorem witness_CallPushesTheReturnAddressAndJumps :
    (7 : Byte).toNat = (7 : Fin 8).val ∧ (codeAt 0xFD [0x50, 0x07]).pc + 2 ≤ 0xFF := by decide
theorem witness_RetPopsThePc :
    (atReg 0xFF [0x30] 7 0xFF).memRead (atReg 0xFF [0x30] 7 0xFF).sp.toNat = some 0x30 := by decide
/-- The clauses of LDI's rule: no opcode byte, no `a`, no `b`, an index of 8, the index 7. -/
theorem witness_LdiRuleFromItsBytes :
    State.reset.run = .running ∧ State.reset.memRead State.reset.pc = none ∧
    (codeAt 0xFF [0x82]).memRead 0xFF = some 0x82 ∧ (codeAt 0xFF [0x82]).memRead 0x100 = none ∧
    (codeAt 0xFE [0x82, 0x00]).memRead 0xFE = some 0x82 ∧ (codeAt 0xFE [0x82, 0x00]).memRead 0xFF ≠ none ∧
    (codeAt 0xFE [0x82, 0x00]).memRead 0x100 = none ∧
    (codeAt 0xFD [0x82, 0x08, 0xFF]).memRead 0xFD = some 0x82 ∧ (codeAt 0xFD [0x82, 0x08, 0xFF]).memRead 0xFE = some 8 ∧
    (codeAt 0xFD [0x82, 0x08, 0xFF]).memRead 0xFF = some 0xFF ∧ 7 < (8 : Byte).toNat ∧
    (codeAt 0xFD [0x82, 0x07, 0xFF]).memRead 0xFE = some 7 ∧ (7 : Byte).toNat = (7 : Fin 8).val := by decide
/-- The clauses of the arithmetic rules, for SUB: no opcode byte, no `a`, no `b`, `a` = 8, `b` = 8, both 7. -/
theorem witness_ArithmeticRulesFromTheirBytes :
    ((0xA1 : Byte) = 0xA1 ∧ (fun x y : Int => x - y) = (fun x y : Int => x - y)) ∧
    State.reset.run = .running ∧ State.reset.memRead State.reset.pc = none ∧
    (codeAt 0xFF [0xA1]).memRead 0xFF = some 0xA1 ∧ (codeAt 0xFF [0xA1]).memRead 0x100 = none ∧
    (codeAt 0xFE [0xA1, 0x00]).memRead 0xFF ≠ none ∧ (codeAt 0xFE [0xA1, 0x00]).memRead 0x100 = none ∧
    (codeAt 0xFD [0xA1, 0x08, 0x07]).memRead 0xFE = some 8 ∧ (codeAt 0xFD [0xA1, 0x08, 0x07]).memRead 0xFF = some 7 ∧
    (codeAt 0xFD [0xA1, 0x07, 0x08]).memRead 0xFF = some 8 ∧ (7 : Byte).toNat ≤ 7 ∧ 7 < (8 : Byte).toNat ∧
    (codeAt 0xFD [0xA1, 0x07, 0x07]).memRead 0xFD = some 0xA1 ∧ (codeAt 0xFD [0xA1, 0x07, 0x07]).memRead 0xFF = some 7 ∧
    (7 : Byte).toNat = (7 : Fin 8).val := by
  exact ⟨⟨rfl, rfl⟩, by decide⟩
theorem witness_JmpRuleFromItsBytes :
    State.reset.run = .running ∧ State.reset.memRead State.reset.pc = none ∧
    (codeAt 0xFF [0x54]).memRead 0xFF = some 0x54 ∧ (codeAt 0xFF [0x54]).memRead 0x100 = none ∧
    (codeAt 0xFE [0x54, 0x08]).memRead 0xFE = some 0x54 ∧ (codeAt 0xFE [0x54, 0x08]).memRead 0xFF = some 8 ∧
    7 < (8 : Byte).toNat ∧ (codeAt 0xFE [0x54, 0x07]).memRead 0xFF = some 7 ∧ (7 : Byte).toNat = (7 : Fin 8).val := by
  decide
theorem witness_RetRuleFromItsByte :
    State.reset.run = .running ∧ State.reset.memRead State.reset.pc = none ∧
    (codeAt 0xFE [0x11]).memRead 0xFE = some 0x11 ∧ (codeAt 0xFE [0x11]).memRead (codeAt 0xFE [0x11]).sp.toNat = none ∧
    (atReg 0xFE [0x11, 0x30] 7 0xFF).memRead (atReg 0xFE [0x11, 0x30] 7 0xFF).sp.toNat = some 0x30 := by decide
theorem witness_PushThenPopRestoresTheRegisters : (6 : Byte).toNat = (6 : Fin 8).val ∧ (6 : Fin 8) ≠ 7 := by decide
/-- CALL at 0 to 0x10, where a RET stands: the state after the CALL is the one RET runs in. -/
theorem witness_RetReturnsAfterTheCall :
    ((atReg 0 [0x50, 0x01] 1 0x10).memWrite 0x10 0x11).run = .running ∧
    bytesAt ((atReg 0 [0x50, 0x01] 1 0x10).memWrite 0x10 0x11) 0 (encode (.call 1)) = true ∧
    step ((atReg 0 [0x50, 0x01] 1 0x10).memWrite 0x10 0x11) =
      .next (after ((atReg 0 [0x50, 0x01] 1 0x10).memWrite 0x10 0x11)) ∧
    (after ((atReg 0 [0x50, 0x01] 1 0x10).memWrite 0x10 0x11)).run = .running ∧
    bytesAt (after ((atReg 0 [0x50, 0x01] 1 0x10).memWrite 0x10 0x11))
      (after ((atReg 0 [0x50, 0x01] 1 0x10).memWrite 0x10 0x11)).pc (encode .ret) = true := by
  exact ⟨by decide, by decide, rfl, by decide, by decide⟩
theorem witness_JumpToItselfRunsForEver :
    (atReg 3 [0x54, 0x00] 0 3).run = .running ∧ (atReg 3 [0x54, 0x00] 0 3).redirect = false ∧
    bytesAt (atReg 3 [0x54, 0x00] 0 3) (atReg 3 [0x54, 0x00] 0 3).pc (encode (.jmp 0)) = true ∧
    (0 : Byte).toNat = (0 : Fin 8).val ∧ ((atReg 3 [0x54, 0x00] 0 3).readReg 0).toNat = (atReg 3 [0x54, 0x00] 0 3).pc := by
  decide
/-- The stack pointer is 3, so the push goes to 2, the address of the next instruction: as HLT's byte, and as an
unassigned byte without operands. -/
theorem witness_PushedByteIsExecutedNext :
    ((atReg 0 [0x45, 0x00] 7 3).writeReg 0 1).run = .running ∧
    bytesAt ((atReg 0 [0x45, 0x00] 7 3).writeReg 0 1) 0 (encode (.push 0)) = true ∧
    (0 : Byte).toNat = (0 : Fin 8).val ∧
    ((atReg 0 [0x45, 0x00] 7 3).writeReg 0 1).pushAddress.toNat = ((atReg 0 [0x45, 0x00] 7 3).writeReg 0 1).pc + 2 ∧
    (0x01 : Byte) = ((atReg 0 [0x45, 0x00] 7 3).writeReg 0 1).readReg 0 ∧
    (0xFF : Byte) = ((atReg 0 [0x45, 0x00] 7 3).writeReg 0 0xFF).readReg 0 ∧
    (0xFF : Byte) ∉ assignedOpcodes ∧ operandCount 0xFF = 0 := by decide
theorem witness_OutputIsAppendedByPrnAndNeverRead :
    step (codeAt 0 [0x47, 0x07]) = .next (after (codeAt 0 [0x47, 0x07])) ∧
    (after (codeAt 0 [0x47, 0x07])).out ≠ (codeAt 0 [0x47, 0x07]).out := by
  exact ⟨rfl, by decide⟩
theorem witness_StepKeepsTheInvariant :
    (codeAt 0 [0x45, 0x00]).Inv ∧ step (codeAt 0 [0x45, 0x00]) = .next (after (codeAt 0 [0x45, 0x00])) := by
  exact ⟨⟨by decide, by decide, by decide⟩, rfl⟩
theorem witness_RunsStartInTheInvariant : boot [0x01] = .next (State.reset.placeBytes 0 [0x01]) := by rfl
theorem witness_FetchWordIsRunNext :
    ({ State.reset with pc := 0xFD } : State).run = .running ∧ ({ State.reset with pc := 0xFD } : State).pc ≤ 0xFD ∧
    decodeTableWord 16 0x0747 = some (.prn 7) := by decide

end Sys2Proof.Tests
end

section
/-! SUPPORT. The output stream (10_state.md R23): every operation of the machine commutes with replacing the output
in the state, and PRN's append is all that is added to it. -/

namespace Sys2Proof.Machine

/-! ### Another output in a state and in an outcome -/

/-- The state with another output stream. -/
def State.withOut (s : State) (o : List Byte) : State := { s with out := o }

@[simp] theorem State.withOut_out (s : State) (o : List Byte) : (s.withOut o).out = o := rfl
@[simp] theorem State.withOut_self (s : State) : s.withOut s.out = s := rfl

theorem State.withOut_clearRedirect (s : State) (o : List Byte) :
    (s.withOut o).clearRedirect = s.clearRedirect.withOut o := rfl

theorem State.withOut_raise (s : State) (o : List Byte) (info : FaultInfo) :
    (s.withOut o).raise info = (s.raise info).withOut o := rfl

theorem State.withOut_pcUpdate (s : State) (o : List Byte) (n : Nat) :
    (s.withOut o).pcUpdate n = (s.pcUpdate n).withOut o := by
  obtain ⟨h, hr⟩ | ⟨h, hr, hd⟩ | ⟨h, hr, hd⟩ := s.pcUpdate_cases n <;> rw [h]
  · exact State.pcUpdate_stopped n hr
  · exact State.pcUpdate_redirected (s := s.withOut o) n hr hd
  · exact State.pcUpdate_running (s := s.withOut o) n hr hd

/-- The outcome with another output stream in its next state, where it has one. -/
def outcomeWithOut (o : List Byte) : Host.Outcome State Fault Refusal → Host.Outcome State Fault Refusal
  | .next t => .next (t.withOut o)
  | .fault r => .fault r
  | .refused r => .refused r

/-! ### The meanings -/

/-- The register check does not look at the output. -/
theorem withRegister_withOut {op r : Byte} {s : State} {o : List Byte}
    {handler handler' : Fin Config.numRegs → Host.Outcome State Fault Refusal}
    (h : ∀ i, handler' i = outcomeWithOut o (handler i)) :
    withRegister op r (s.withOut o) handler' = outcomeWithOut o (withRegister op r s handler) := by
  unfold withRegister
  cases registerOf r with
  | some i => exact h i
  | none => rfl

/-- A memory read inside a handler does not look at the output. -/
theorem withMemByte_withOut {addr : Nat} {s : State} {o : List Byte}
    {handler handler' : Byte → Host.Outcome State Fault Refusal}
    (h : ∀ v, handler' v = outcomeWithOut o (handler v)) :
    withMemByte addr (s.withOut o) handler' = outcomeWithOut o (withMemByte addr s handler) := by
  have hread : (s.withOut o).memRead addr = s.memRead addr := rfl
  unfold withMemByte
  rw [hread]
  cases s.memRead addr with
  | some v => exact h v
  | none => rfl

theorem arithmetic_withOut (op : Byte) (f : Int → Int → Int) (a b : Byte) (s : State) (o : List Byte) :
    arithmetic op f a b (s.withOut o) = outcomeWithOut o (arithmetic op f a b s) :=
  withRegister_withOut fun _ => withRegister_withOut fun _ => rfl

theorem execCall_withOut (a : Byte) (s : State) (o : List Byte) :
    execCall a (s.withOut o) = outcomeWithOut o (execCall a s) := by
  refine withRegister_withOut fun i => ?_
  have hret : (s.withOut o).returnAddress = s.returnAddress := rfl
  rw [hret]
  split <;> rfl

/-- The values an instruction emits: PRN's register, where the operand names one (41_data_movement.md R91). -/
def emitted : Instr → State → List Byte
  | .prn a, s => ((registerOf a).map s.readReg).toList
  | _, _ => []

theorem emitted_cases (i : Instr) (s : State) :
    emitted i s = [] ∨ ∃ (a : Byte) (r : Fin Config.numRegs), i = .prn a ∧ a.toNat = r.val ∧
      emitted i s = [s.readReg r] := by
  cases i with
  | prn a =>
    obtain ⟨r, hr⟩ | ha := register_cases a
    · exact .inr ⟨a, r, rfl, hr, by simp [emitted, registerOf_eq_some.2 hr]⟩
    · exact .inl (by simp [emitted, registerOf_eq_none.2 ha])
  | _ => exact .inl rfl

theorem execPrn_withOut (a : Byte) (s : State) (o : List Byte) :
    execPrn a (s.withOut o) = outcomeWithOut (o ++ emitted (.prn a) s) (execPrn a s) := by
  obtain ⟨r, hr⟩ | ha := register_cases a
  · simp only [execPrn, withRegister_legal hr, emitted, registerOf_eq_some.2 hr]
    rfl
  · simp only [execPrn, withRegister_illegal ha, emitted, registerOf_eq_none.2 ha]
    simp [outcomeWithOut, State.withOut, State.raise]

theorem exec_withOut_of_emitted_nil {i : Instr} {s : State} {o : List Byte} (hnone : emitted i s = [])
    (h : exec i (s.withOut o) = outcomeWithOut o (exec i s)) :
    exec i (s.withOut o) = outcomeWithOut (o ++ emitted i s) (exec i s) := by
  rw [hnone, List.append_nil, h]

/-- With another output in the state, an instruction does the same and appends the same values. -/
theorem exec_withOut (i : Instr) (s : State) (o : List Byte) :
    exec i (s.withOut o) = outcomeWithOut (o ++ emitted i s) (exec i s) := by
  cases i with
  | prn a => exact execPrn_withOut a s o
  | ldi a b => exact exec_withOut_of_emitted_nil rfl (withRegister_withOut fun _ => rfl)
  | add a b => exact exec_withOut_of_emitted_nil rfl (arithmetic_withOut ..)
  | sub a b => exact exec_withOut_of_emitted_nil rfl (arithmetic_withOut ..)
  | mul a b => exact exec_withOut_of_emitted_nil rfl (arithmetic_withOut ..)
  | push a => exact exec_withOut_of_emitted_nil rfl (withRegister_withOut fun _ => rfl)
  | pop a =>
    exact exec_withOut_of_emitted_nil rfl (withRegister_withOut fun _ => withMemByte_withOut fun _ => rfl)
  | jmp a => exact exec_withOut_of_emitted_nil rfl (withRegister_withOut fun _ => rfl)
  | call a => exact exec_withOut_of_emitted_nil rfl (execCall_withOut a s o)
  | ret => exact exec_withOut_of_emitted_nil rfl (withMemByte_withOut fun _ => rfl)
  | hlt => exact exec_withOut_of_emitted_nil rfl rfl

/-! ### Fetching -/

theorem State.fetchByte_withOut (s : State) (o : List Byte) (addr : Nat) :
    (s.withOut o).fetchByte addr = s.fetchByte addr := rfl

theorem State.fetchOperands_withOut (s : State) (o : List Byte) (addr n : Nat) :
    (s.withOut o).fetchOperands addr n = s.fetchOperands addr n := by
  induction n generalizing addr with
  | zero => rfl
  | succ n ih => simp only [State.fetchOperands, State.fetchByte_withOut, ih]

theorem State.fetchInstr_withOut (s : State) (o : List Byte) : (s.withOut o).fetchInstr = s.fetchInstr := by
  have hpc : (s.withOut o).pc = s.pc := rfl
  simp only [State.fetchInstr, State.fetchByte_withOut, State.fetchOperands_withOut, hpc]

/-! ### The step -/

/-- A step appends some values, none unless a PRN of a register stands at the pc, and with any other output in the
state it does the same and appends the same. -/
theorem step_withOut {s t : State} (h : step s = .next t) :
    ∃ vs : List Byte,
      (vs = [] ∨ ∃ (a : Byte) (r : Fin Config.numRegs), bytesAt s s.pc (encode (.prn a)) = true ∧
        a.toNat = r.val ∧ vs = [s.readReg r]) ∧
      ∀ o, step (s.withOut o) = .next (t.withOut (o ++ vs)) := by
  obtain ⟨hrun, hpass⟩ := step_next_running h
  have hstep : ∀ o, step (s.withOut o) = loopPass (s.withOut o) := fun o => step_running hrun
  obtain ⟨info, hfetch, rfl⟩ | ⟨i, u, hbytes, hexec, rfl⟩ := loopPass_cases hpass
  · refine ⟨[], .inl rfl, fun o => ?_⟩
    have hfetch' : (s.withOut o).clearRedirect.fetchInstr = .error info := by
      rw [State.withOut_clearRedirect, State.fetchInstr_withOut, hfetch]
    rw [hstep, loopPass_fetchFault hfetch', State.withOut_clearRedirect, State.withOut_raise, List.append_nil]
  · refine ⟨emitted i s.clearRedirect, ?_, fun o => ?_⟩
    · obtain hnone | ⟨a, r, rfl, hr, hvs⟩ := emitted_cases i s.clearRedirect
      · exact .inl hnone
      · exact .inr ⟨a, r, hbytes, hr, hvs⟩
    · have hbytes' : bytesAt (s.withOut o) (s.withOut o).pc (encode i) = true :=
        (bytesAt_of_memRead (s := s) (t := s.withOut o) (fun _ => rfl) s.pc (encode i)).trans hbytes
      have hexec' : exec i (s.withOut o).clearRedirect = .next (u.withOut (o ++ emitted i s.clearRedirect)) := by
        rw [State.withOut_clearRedirect, exec_withOut, hexec]
        rfl
      rw [hstep, loopPass_fetched hbytes' hexec', State.withOut_pcUpdate]

/-- The state's own output is one of those the step is the same for, so what is appended to any is appended to it. -/
theorem step_out_eq_append {s t : State} {vs : List Byte} (h : step s = .next t)
    (hall : ∀ o, step (s.withOut o) = .next (t.withOut (o ++ vs))) : t.out = s.out ++ vs := by
  have hself := hall s.out
  rw [State.withOut_self, h] at hself
  injection hself with ht
  rw [ht, State.withOut_out]

/-! ### The statements of 10_state.md -/

/-- Settles O49: the clauses about steps are the two halves of `step_withOut`. -/
theorem outputIsAppendedByPrnAndNeverRead : Obligations.OutputIsAppendedByPrnAndNeverRead := by
  unfold Obligations.OutputIsAppendedByPrnAndNeverRead
  refine ⟨rfl, fun s t h => ?_, fun s t o h => ?_⟩
  · obtain ⟨vs, hvs, hall⟩ := step_withOut h
    obtain rfl | ⟨a, r, hbytes, hr, rfl⟩ := hvs
    · exact .inl (by rw [step_out_eq_append h hall, List.append_nil])
    · exact .inr ⟨a, r, hbytes, hr, step_out_eq_append h hall⟩
  · obtain ⟨vs, -, hall⟩ := step_withOut h
    exact ⟨vs, step_out_eq_append h hall, hall o⟩

/-- Settles O4: the register read after a write, and the eight reset values one by one. -/
theorem registerReadsLastWritten : Obligations.RegisterReadsLastWritten := by
  unfold Obligations.RegisterReadsLastWritten
  refine ⟨fun s i j v => ?_, by decide⟩
  rw [State.writeReg_readReg]
  exact if_congr eq_comm rfl rfl

end Sys2Proof.Machine
end

section
/-! SUPPORT. Memory (20_memory.md): what registers and cells hold after bytes are placed, and the statements about a
read, a write and LOAD. -/

namespace Sys2Proof.Machine

/-! ### Registers and cells after bytes are placed -/

@[simp] theorem State.placeBytes_readReg (s : State) (addr : Nat) (bytes : List Byte) (j : Fin Config.numRegs) :
    (s.placeBytes addr bytes).readReg j = s.readReg j := by
  rw [State.readReg, State.placeBytes_regs, State.readReg]

/-- A placed byte is read back from its address, if the address exists. -/
theorem State.placeBytes_memRead_placed (s : State) (addr : Nat) (bytes : List Byte) {k : Nat}
    (hk : k < bytes.length) (hx : addr + k ≤ 0xFF) :
    (s.placeBytes addr bytes).memRead (addr + k) = some bytes[k] := by
  induction bytes generalizing s addr k with
  | nil => exact absurd hk (Nat.not_lt_zero k)
  | cons v vs ih =>
    obtain ⟨t, hp, ht⟩ := s.placeBytes_cons addr v vs
    rw [hp]
    cases k with
    | zero =>
      calc (t.placeBytes (addr + 1) vs).memRead addr
        _ = t.memRead addr := t.placeBytes_memRead_below (addr + 1) vs (Nat.lt_succ_self addr)
        _ = some v := by rw [ht, if_pos ⟨rfl, hx⟩]
    | succ k =>
      have hnext : addr + (k + 1) = addr + 1 + k := by omega
      rw [hnext] at hx ⊢
      exact ih t (addr + 1) (Nat.lt_of_succ_lt_succ hk) hx

/-- An address beyond the last byte placed keeps its cell. -/
theorem State.placeBytes_memRead_beyond (s : State) (addr : Nat) (bytes : List Byte) {x : Nat}
    (hx : addr + bytes.length ≤ x) : (s.placeBytes addr bytes).memRead x = s.memRead x := by
  induction bytes generalizing s addr with
  | nil => rfl
  | cons v vs ih =>
    rw [List.length_cons] at hx
    obtain ⟨t, hp, ht⟩ := s.placeBytes_cons addr v vs
    rw [hp, ih t (addr + 1) (by omega), ht, if_neg (by omega)]

/-! ### Reads -/

/-- There is nothing to read above 0xFF (20_memory.md R30). -/
theorem State.memRead_eq_none_of_gt (s : State) {addr : Nat} (h : 0xFF < addr) : s.memRead addr = none :=
  if_neg (mt (addressExists_iff addr).1 (Nat.not_le.2 h))

/-! ### LOAD -/

/-- LOAD of an image that fits into memory answers the state with the image placed from address 0. -/
theorem load_eq_placeBytes {image : List Byte} (s : State) (h : image.length ≤ 256) :
    load image s = .next (s.placeBytes 0 image) :=
  if_neg (Nat.not_lt.2 h)

/-! ### The statements of 20_memory.md -/

/-- Settles O2: the start of a run is LOAD by definition, and LOAD places the image from address 0. -/
theorem loadWritesTheImageAndNothingElse : Obligations.LoadWritesTheImageAndNothingElse := by
  unfold Obligations.LoadWritesTheImageAndNothingElse
  refine ⟨fun _ => rfl, fun image s hlen => ⟨s.placeBytes 0 image, load_eq_placeBytes s hlen, ?_, ?_, ?_, ?_, ?_⟩⟩
  · intro k hk
    have hplaced := s.placeBytes_memRead_placed 0 image hk (by omega)
    rwa [Nat.zero_add] at hplaced
  · intro addr haddr
    exact s.placeBytes_memRead_beyond 0 image (by omega)
  · exact fun j _ => s.placeBytes_readReg 0 image j
  · exact ⟨s.placeBytes_pc 0 image, s.placeBytes_run 0 image, s.placeBytes_redirect 0 image⟩
  · exact s.placeBytes_out 0 image

/-- Settles O6: the address is a byte, so its cell exists and the write takes effect. -/
theorem memWriteStoresAndMakesValid : Obligations.MemWriteStoresAndMakesValid := by
  unfold Obligations.MemWriteStoresAndMakesValid
  intro s a v addr
  exact State.memRead_of_write s (s.memWrite a v) a.toNat v (addressExists_byte a) (State.memWrite_mem ..) addr

/-- Settles O5: an address above 0xFF reads as an unwritten cell does, and a read that hands on a byte is of an
address that exists. -/
theorem memReadRaisesUnlessValid : Obligations.MemReadRaisesUnlessValid := by
  unfold Obligations.MemReadRaisesUnlessValid
  intro s addr handler
  refine ⟨fun hraise => ?_, fun v hv => ⟨State.memRead_exists hv, withMemByte_readable hv⟩⟩
  have hnone : s.memRead addr = none := hraise.elim s.memRead_eq_none_of_gt id
  exact withMemByte_unreadable hnone

end Sys2Proof.Machine
end

section
/-! SUPPORT. Encoding (30_encoding.md): the opcode map and the statement about it. -/

namespace Sys2Proof

/-- The opcode bytes are pairwise different (30_encoding.md R55). -/
theorem assignedOpcodes_nodup : assignedOpcodes.Nodup := by decide

/-- The one opcode-shaped literal of the source stands for an unassigned byte (30_encoding.md R55). -/
theorem allOnes_not_assigned : 0xFF ∉ assignedOpcodes := by decide

/-! ### The statements of 30_encoding.md -/

/-- Settles O13: the field `N` is read off the constants of each arity, and the rest is about the list of the eleven. -/
theorem opcodesMeetTheSourceConstraints : Obligations.OpcodesMeetTheSourceConstraints := by
  unfold Obligations.OpcodesMeetTheSourceConstraints
  have two : ∀ op ∈ [opcLdi, opcAdd, opcSub, opcMul], op >>> 6 = 0b10 := by decide
  have one : ∀ op ∈ [opcPrn, opcPush, opcPop, opcJmp, opcCall], op >>> 6 = 0b01 := by decide
  have zero : opcRet >>> 6 = 0b00 := by decide
  exact ⟨two, one, zero, rfl, assignedOpcodes_nodup, allOnes_not_assigned⟩

end Sys2Proof
end

section
/-! SUPPORT. The execution loop (40_execution_loop.md): how a fetch faults, which faults a meaning raises, that a step
in `Running` always has a next state, and how a bounded run goes on and ends. -/

namespace Sys2Proof.Machine

/-! ### Faults of the fetch -/

theorem State.fetchByte_unreadable {s : State} {addr : Nat} (h : s.memRead addr = none) :
    s.fetchByte addr = .error (.uninitializedMemoryAccess s.pc addr) :=
  State.fetchByte_error.2 ⟨h, rfl⟩

/-- The converse of `State.fetchOperands_error`: the lowest unreadable operand address is the one that faults. -/
theorem State.fetchOperands_unreadable {s : State} {n k addr : Nat} (hk : k < n)
    (hnone : s.memRead (addr + k) = none) (hbefore : ∀ j, j < k → s.memRead (addr + j) ≠ none) :
    s.fetchOperands addr n = .error (.uninitializedMemoryAccess s.pc (addr + k)) := by
  induction n generalizing addr k with
  | zero => exact absurd hk (Nat.not_lt_zero k)
  | succ n ih =>
    cases k with
    | zero => simp only [State.fetchOperands, State.fetchByte_unreadable (addr := addr) hnone, Nat.add_zero]
    | succ k =>
      have shift : ∀ j, addr + (j + 1) = addr + 1 + j := by omega
      obtain ⟨v, hv⟩ : ∃ v, s.memRead addr = some v := Option.ne_none_iff_exists'.1 (hbefore 0 (Nat.succ_pos k))
      rw [shift] at hnone ⊢
      have hrest := ih (Nat.lt_of_succ_lt_succ hk) hnone fun j hj => shift j ▸ hbefore (j + 1) (Nat.succ_lt_succ hj)
      simp only [State.fetchOperands, State.fetchByte_ok.2 hv, hrest]

/-- The opcode byte at the pc is not readable (40_execution_loop.md R71). -/
theorem State.fetchInstr_opcodeUnreadable {s : State} (h : s.memRead s.pc = none) :
    s.fetchInstr = .error (.uninitializedMemoryAccess s.pc s.pc) := by
  simp only [State.fetchInstr, State.fetchByte_unreadable h]

/-- An operand byte is not readable, and those before it are (40_execution_loop.md R73). -/
theorem State.fetchInstr_operandUnreadable {s : State} {op : Byte} {k : Nat} (hop : s.memRead s.pc = some op)
    (hh : op ≠ opcHlt) (hk : k < operandCount op) (hnone : s.memRead (s.pc + 1 + k) = none)
    (hbefore : ∀ j, j < k → s.memRead (s.pc + 1 + j) ≠ none) :
    s.fetchInstr = .error (.uninitializedMemoryAccess s.pc (s.pc + 1 + k)) := by
  simp only [State.fetchInstr, State.fetchByte_ok.2 hop, if_neg hh, State.fetchOperands_unreadable hk hnone hbefore]

theorem operandCount_le_two (op : Byte) : operandCount op ≤ 2 := by
  unfold operandCount
  split
  · decide
  · split <;> decide

/-- `operandsReadable` says of each operand the opcode asks for that it is readable. -/
theorem memRead_ne_none_of_operandsReadable {s : State} {op : Byte} {k : Nat} (h : operandsReadable s op = true)
    (hk : k < operandCount op) : s.memRead (s.pc + 1 + k) ≠ none := by
  obtain ⟨hfirst, hsecond⟩ := Bool.and_eq_true_iff.1 h
  have hle := operandCount_le_two op
  obtain rfl | rfl : k = 0 ∨ k = 1 := by omega
  · have hcount : operandCount op ≠ 0 := by omega
    simpa [hcount, Option.isSome_iff_ne_none] using hfirst
  · have hcount : operandCount op = 2 := by omega
    simpa [hcount, Option.isSome_iff_ne_none] using hsecond

/-! ### Faults of a step -/

/-- A fetch that faults makes the step fault. -/
theorem faultsWith_of_fetchInstr_error {s : State} {info : FaultInfo} (hrun : s.run = .running)
    (h : s.clearRedirect.fetchInstr = .error info) : FaultsWith s info :=
  (step_running hrun).trans (loopPass_fetchFault h)

/-- A step faults at the first operand that cannot be read. -/
theorem faultsWith_of_operandUnreadable {s : State} {op : Byte} {k : Nat} (hrun : s.run = .running)
    (hop : s.memRead s.pc = some op) (hh : op ≠ opcHlt) (hk : k < operandCount op)
    (hnone : s.memRead (s.pc + 1 + k) = none) (hbefore : ∀ j, j < k → s.memRead (s.pc + 1 + j) ≠ none) :
    FaultsWith s (.uninitializedMemoryAccess s.pc (s.pc + 1 + k)) :=
  faultsWith_of_fetchInstr_error hrun
    (State.fetchInstr_operandUnreadable (s := s.clearRedirect) hop hh hk hnone hbefore)

/-- ADD, SUB and MUL leave the run state alone, or raise the fault of an operand above 7. -/
theorem arithmetic_run_or_indexFault {op : Byte} {f : Int → Int → Int} {a b : Byte} {s t : State}
    (h : arithmetic op f a b s = .next t) :
    t.run = s.run ∨ ∃ r ∈ [a, b], 7 < r.toNat ∧ t = s.raise (.outOfBounds s.pc op r.toNat) := by
  obtain ⟨i, j, -, -, rfl⟩ | hbad | ⟨-, hbad⟩ := arithmetic_cases h
  · exact .inl rfl
  · exact .inr ⟨a, .head _, hbad⟩
  · exact .inr ⟨b, .tail _ (.head _), hbad⟩

/-- Every way an instruction can fault past its fetch: a register operand above 7, CALL's return address, or the cell
that POP or RET reads. -/
theorem exec_faulted_cases {i : Instr} {s t : State} {info : FaultInfo} (hrun : s.run = .running)
    (h : exec i s = .next t) (ht : t.run = .faulted info) :
    (∃ r ∈ i.registerOperands, 7 < r.toNat ∧ info = .outOfBounds s.pc i.opcode r.toNat) ∨
    (∃ a, i = .call a ∧ 0xFF < s.pc + 2 ∧ info = .outOfBounds s.pc opcCall (s.pc + 2)) ∨
    ((i = .ret ∨ ∃ a, i = .pop a) ∧ s.memRead s.sp.toNat = none ∧
      info = .uninitializedMemoryAccess s.pc s.sp.toNat) := by
  have hchanged : t.run ≠ s.run := by simp [hrun, ht]
  have raised {info' : FaultInfo} (hraise : t = s.raise info') : info = info' := by
    rw [hraise] at ht
    exact (RunState.faulted.inj ht).symm
  have arith {op a b : Byte} {f : Int → Int → Int} (h : arithmetic op f a b s = .next t) :
      ∃ r ∈ [a, b], 7 < r.toNat ∧ info = .outOfBounds s.pc op r.toNat := by
    obtain ⟨r, hr, hbad, hraise⟩ := (arithmetic_run_or_indexFault h).resolve_left hchanged
    exact ⟨r, hr, hbad, raised hraise⟩
  cases i with
  | ldi a b =>
    obtain ⟨r, -, rfl⟩ | ⟨hbad, hraise⟩ := execLdi_cases h
    · exact absurd rfl hchanged
    · exact .inl ⟨a, .head _, hbad, raised hraise⟩
  | prn a =>
    obtain ⟨r, -, rfl⟩ | ⟨hbad, hraise⟩ := execPrn_cases h
    · exact absurd rfl hchanged
    · exact .inl ⟨a, .head _, hbad, raised hraise⟩
  | add a b => exact .inl (arith h)
  | sub a b => exact .inl (arith h)
  | mul a b => exact .inl (arith h)
  | push a =>
    obtain ⟨r, -, rfl⟩ | ⟨hbad, hraise⟩ := execPush_cases h
    · exact absurd rfl hchanged
    · exact .inl ⟨a, .head _, hbad, raised hraise⟩
  | pop a =>
    obtain ⟨r, v, -, -, rfl⟩ | ⟨hbad, hraise⟩ | ⟨-, hnone, hraise⟩ := execPop_cases h
    · exact absurd rfl hchanged
    · exact .inl ⟨a, .head _, hbad, raised hraise⟩
    · exact .inr (.inr ⟨.inr ⟨a, rfl⟩, hnone, raised hraise⟩)
  | jmp a =>
    obtain ⟨r, -, rfl⟩ | ⟨hbad, hraise⟩ := execJmp_cases h
    · exact absurd rfl hchanged
    · exact .inl ⟨a, .head _, hbad, raised hraise⟩
  | call a =>
    obtain ⟨r, -, -, rfl⟩ | ⟨hbad, hraise⟩ | ⟨-, hret, hraise⟩ := execCall_cases h
    · exact absurd rfl hchanged
    · exact .inl ⟨a, .head _, hbad, raised hraise⟩
    · exact .inr (.inl ⟨a, rfl, hret, raised hraise⟩)
  | ret =>
    obtain ⟨v, -, rfl⟩ | ⟨hnone, hraise⟩ := execRet_cases h
    · exact absurd rfl hchanged
    · exact .inr (.inr ⟨.inl rfl, hnone, raised hraise⟩)
  | hlt =>
    cases h
    cases ht

/-- With the bytes that the opcode asks for readable, the only cell a step can fail to read is the one at SP. -/
theorem sp_eq_of_faultsWith_uninitialized {s : State} {op : Byte} {addr : Nat} (hop : s.memRead s.pc = some op)
    (hreadable : operandsReadable s op = true) (hfault : FaultsWith s (.uninitializedMemoryAccess s.pc addr)) :
    s.sp.toNat = addr := by
  obtain ⟨hrun, hpass⟩ := step_next_running hfault
  obtain ⟨info, hfetch, ht⟩ | ⟨i, u, -, hexec, ht⟩ := loopPass_cases hpass
  · obtain rfl : _ = info := RunState.faulted.inj (congrArg State.run ht)
    obtain ⟨hnone, -⟩ | ⟨op', k, hop', -, hk, hnone, -⟩ | ⟨_, _, _, _, _, _, hinfo⟩ :=
      State.fetchInstr_error hfetch
    · cases hop.symm.trans hnone
    · cases hop.symm.trans hop'
      exact absurd hnone (memRead_ne_none_of_operandsReadable hreadable hk)
    · cases hinfo
  · have hu : u.run = .faulted (.uninitializedMemoryAccess s.pc addr) := by
      rw [← u.pcUpdate_run, ← ht]
    obtain ⟨_, _, _, hinfo⟩ | ⟨_, _, _, hinfo⟩ | ⟨-, -, hinfo⟩ :=
      exec_faulted_cases (s := s.clearRedirect) hrun hexec hu
    · cases hinfo
    · cases hinfo
    · cases hinfo
      rfl

/-! ### Every running state has a step -/

theorem withRegister_next {op r : Byte} {s : State}
    {handler : Fin Config.numRegs → Host.Outcome State Fault Refusal} (h : ∀ i, ∃ t, handler i = .next t) :
    ∃ t, withRegister op r s handler = .next t := by
  obtain ⟨i, hi⟩ | hr := register_cases r
  · rw [withRegister_legal hi]
    exact h i
  · exact ⟨_, withRegister_illegal hr⟩

theorem withMemByte_next {addr : Nat} {s : State} {handler : Byte → Host.Outcome State Fault Refusal}
    (h : ∀ v, ∃ t, handler v = .next t) : ∃ t, withMemByte addr s handler = .next t := by
  cases hv : s.memRead addr with
  | some v =>
    rw [withMemByte_readable hv]
    exact h v
  | none => exact ⟨_, withMemByte_unreadable hv⟩

theorem arithmetic_next (op : Byte) (f : Int → Int → Int) (a b : Byte) (s : State) :
    ∃ t, arithmetic op f a b s = .next t :=
  withRegister_next fun _ => withRegister_next fun _ => ⟨_, rfl⟩

theorem execCall_next (a : Byte) (s : State) : ∃ t, execCall a s = .next t := by
  refine withRegister_next fun i => ?_
  split
  · exact ⟨_, rfl⟩
  · exact ⟨_, rfl⟩

/-- No meaning refuses, and none stops the machine (60_exceptions.md R138). -/
theorem exec_next (i : Instr) (s : State) : ∃ t, exec i s = .next t := by
  cases i with
  | ldi a b => exact withRegister_next fun _ => ⟨_, rfl⟩
  | prn a => exact withRegister_next fun _ => ⟨_, rfl⟩
  | add a b => exact arithmetic_next ..
  | sub a b => exact arithmetic_next ..
  | mul a b => exact arithmetic_next ..
  | push a => exact withRegister_next fun _ => ⟨_, rfl⟩
  | pop a => exact withRegister_next fun _ => withMemByte_next fun _ => ⟨_, rfl⟩
  | jmp a => exact withRegister_next fun _ => ⟨_, rfl⟩
  | call a => exact execCall_next a s
  | ret => exact withMemByte_next fun _ => ⟨_, rfl⟩
  | hlt => exact ⟨_, rfl⟩

theorem loopPass_next (s : State) : ∃ t, loopPass s = .next t := by
  cases hfetch : s.clearRedirect.fetchInstr with
  | error info => exact ⟨_, loopPass_fetchFault hfetch⟩
  | ok i =>
    obtain ⟨t, ht⟩ := exec_next i s.clearRedirect
    exact ⟨_, loopPass_fetched (by simpa using State.fetchInstr_ok.1 hfetch) ht⟩

theorem step_next {s : State} (h : s.run = .running) : ∃ t, step s = .next t := by
  rw [step_running h]
  exact loopPass_next s

theorem step_halted {s : State} (h : s.run = .halted) : step s = .fault .haltedHasNoStep := by
  simp [step, h]

theorem step_faulted {s : State} {info : FaultInfo} (h : s.run = .faulted info) :
    step s = .fault (.faultedHasNoStep info) := by
  simp [step, h]

/-! ### Bounded runs -/

theorem runFor_succ_of_step {s t : State} (n : Nat) (h : step s = .next t) : runFor (n + 1) s = runFor n t := by
  simp only [runFor, h]

/-- A run that has ended stays as it is. -/
theorem runFor_of_ended {s : State} (n : Nat) (h : s.run ≠ .running) : runFor n s = s := by
  cases n with
  | zero => rfl
  | succ n =>
    cases hrun : s.run with
    | running => exact absurd hrun h
    | halted => simp only [runFor, step_halted hrun]
    | faulted info => simp only [runFor, step_faulted hrun]

theorem runFor_add (n k : Nat) (s : State) : runFor (n + k) s = runFor k (runFor n s) := by
  induction n generalizing s with
  | zero => rw [Nat.zero_add, runFor]
  | succ n ih =>
    by_cases hrun : s.run = .running
    · obtain ⟨t, ht⟩ := step_next hrun
      rw [Nat.add_right_comm, runFor_succ_of_step _ ht, runFor_succ_of_step _ ht, ih]
    · simp only [runFor_of_ended _ hrun]

/-- Once a run has ended, further steps leave it where it ended. -/
theorem runFor_eq_of_ended {s : State} {n m : Nat} (hended : (runFor n s).run ≠ .running) (h : n ≤ m) :
    runFor m s = runFor n s := by
  obtain ⟨k, rfl⟩ := Nat.exists_eq_add_of_le h
  rw [runFor_add, runFor_of_ended k hended]

/-! ### The statements of 40_execution_loop.md -/

/-- Settles O21: a run that is not running for ever has ended after some number of steps, by a halt or by a fault. -/
theorem runsHaltFaultOrNeverEnd : Obligations.RunsHaltFaultOrNeverEnd := by
  unfold Obligations.RunsHaltFaultOrNeverEnd
  refine ⟨fun _ => step_next, fun _ => step_halted, fun _ _ => step_faulted, fun s => ?_⟩
  by_cases hforever : ∀ n, (runFor n s).run = .running
  · exact .inr (.inr hforever)
  · obtain ⟨n, hended⟩ := not_forall.1 hforever
    have hstays : ∀ m, n ≤ m → runFor m s = runFor n s := fun _ => runFor_eq_of_ended hended
    cases hrun : (runFor n s).run with
    | running => exact absurd hrun hended
    | halted => exact .inl ⟨n, hrun, hstays⟩
    | faulted info => exact .inr (.inl ⟨n, info, hrun, hstays⟩)

/-- Settles O24: the first three clauses are the fetch at its first unreadable operand; with all of them readable, a
memory fault can only come from a meaning, and there only from the stack pointer's cell. -/
theorem operandFetchFaults : Obligations.OperandFetchFaults := by
  unfold Obligations.OperandFetchFaults
  intro s op hrun hop hh
  have hfirst (hcount : 1 ≤ operandCount op) (hnone : s.memRead (s.pc + 1) = none) :
      FaultsWith s (.uninitializedMemoryAccess s.pc (s.pc + 1)) :=
    faultsWith_of_operandUnreadable (k := 0) hrun hop hh hcount hnone fun j hj => absurd hj (Nat.not_lt_zero j)
  refine ⟨hfirst, ?_, ?_, ?_⟩
  · intro hcount hreadable hnone
    refine faultsWith_of_operandUnreadable (k := 1) hrun hop hh (by omega) hnone fun j hj => ?_
    rwa [Nat.lt_one_iff.1 hj]
  · intro hcount hpc
    have hfault := hfirst hcount (s.memRead_eq_none_of_gt (by omega))
    rwa [hpc] at hfault
  · intro hreadable addr hsp hfault
    exact hsp (sp_eq_of_faultsWith_uninitialized hop hreadable hfault)

/-- Settles O23: an address above 0xFF reads as an unwritten cell does, and that is how the opcode fetch faults. -/
theorem opcodeFetchFaults : Obligations.OpcodeFetchFaults := by
  unfold Obligations.OpcodeFetchFaults
  intro s hrun hcause
  have hnone : s.memRead s.pc = none := hcause.elim s.memRead_eq_none_of_gt id
  exact faultsWith_of_fetchInstr_error hrun (State.fetchInstr_opcodeUnreadable (s := s.clearRedirect) hnone)

end Sys2Proof.Machine
end

section
/-! SUPPORT. The state after reset (70_reset_and_hazards.md): what a read of a register or a cell answers there, and the
statement about its fields. -/

namespace Sys2Proof.Machine

/-- The stack pointer is the one register that reset does not make 0 (10_state.md R26). -/
theorem State.reset_readReg (i : Fin 8) : State.reset.readReg i = if i = 7 then 0xF4 else 0 :=
  registerReadsLastWritten.2 i

/-- Reset makes every cell not valid (10_state.md R26): its memory lists none, so an address that exists has no datum. -/
@[simp] theorem State.reset_memRead (addr : Nat) : State.reset.memRead addr = none :=
  ite_self none

/-! ### The statement of 70_reset_and_hazards.md -/

/-- Settles O1: the pc, the run state, the redirect signal and the output are fields of the reset state as it is
written; the registers and the cells are read. -/
theorem resetStateIsTheSpecs : Obligations.ResetStateIsTheSpecs := by
  unfold Obligations.ResetStateIsTheSpecs
  have hzero (i : Fin 8) (hi : i ≠ 7) : State.reset.readReg i = 0 := (State.reset_readReg i).trans (if_neg hi)
  exact ⟨rfl, hzero, State.reset_readReg 7, rfl, rfl, State.reset_memRead, rfl⟩

end Sys2Proof.Machine
end

section
/-! SUPPORT. Decoding against encoding (30_encoding.md): what the decoder answers on an opcode byte followed by the
operand bytes it asks for, which decides both directions of the inverse and which opcode bytes decode. -/

namespace Sys2Proof

/-- An opcode byte other than HLT's, followed by as many operand bytes as it asks for, decodes as the dispatch table
says; what follows is handed on. -/
theorem decode_operands {op : Byte} {operands : List Byte} (rest : List Byte) (hh : op ≠ opcHlt)
    (hn : operands.length = operandCount op) :
    decode (op :: operands ++ rest) =
      (dispatchTable op operands).elim (.error (.unsupportedOpcode op)) fun i => .ok (i, rest) := by
  have htake : takeBytes (operandCount op) (operands ++ rest) = some (operands, rest) :=
    hn ▸ takeBytes_append operands rest
  simp only [List.cons_append, decode, if_neg hh, htake]
  cases dispatchTable op operands with
  | some i => rfl
  | none => rfl

theorem decode_encode (i : Instr) (rest : List Byte) : decode (encode i ++ rest) = .ok (i, rest) := by
  by_cases hi : i = .hlt
  · subst hi
    rfl
  · rw [encode, decode_operands rest (opcode_ne_hlt hi) (operandCount_opcode i).symm, dispatchTable_complete i hi]
    rfl

/-- The decoder answers an instruction only where the operand bytes that the opcode asks for are present. -/
theorem operands_present_of_decode_ok {op : Byte} {bytes rest : List Byte} {i : Instr} (hh : op ≠ opcHlt)
    (h : decode (op :: bytes) = .ok (i, rest)) :
    ∃ operands more, bytes = operands ++ more ∧ operands.length = operandCount op := by
  cases htake : takeBytes (operandCount op) bytes with
  | some taken => exact ⟨taken.1, taken.2, takeBytes_eq_some htake⟩
  | none =>
    simp only [decode, if_neg hh, htake] at h
    cases h

theorem eq_encode_of_decode {bytes rest : List Byte} {i : Instr} (h : decode bytes = .ok (i, rest)) :
    bytes = encode i ++ rest := by
  cases bytes with
  | nil => cases h
  | cons op bytes =>
    by_cases hh : op = opcHlt
    · rw [decode, if_pos hh] at h
      cases h
      rw [hh]
      rfl
    · obtain ⟨operands, more, rfl, hn⟩ := operands_present_of_decode_ok hh h
      rw [← List.cons_append, decode_operands more hh hn] at h
      cases htable : dispatchTable op operands with
      | none =>
        rw [htable] at h
        cases h
      | some j =>
        rw [htable] at h
        cases h
        obtain ⟨rfl, rfl, -⟩ := dispatchTable_sound htable
        rfl

theorem decode_eq_ok_iff {bytes rest : List Byte} {i : Instr} :
    decode bytes = .ok (i, rest) ↔ bytes = encode i ++ rest :=
  ⟨eq_encode_of_decode, fun h => h ▸ decode_encode i rest⟩

/-- A table word stands for an instruction exactly when its three bytes begin with the instruction's encoding. -/
theorem decodeTableWord_eq_some_iff {nbits w : Nat} {i : Instr} :
    decodeTableWord nbits w = some i ↔ ∃ rest, tableWordBytes nbits w = encode i ++ rest := by
  simp only [← decode_eq_ok_iff]
  unfold decodeTableWord
  cases decode (tableWordBytes nbits w) with
  | error e => simp
  | ok r => simp [Prod.ext_iff]

/-- The field `N` by arithmetic on the byte (30_encoding.md R51). -/
theorem operandCountField_eq_div (op : Byte) : operandCountField op = op.toNat / 64 := by
  rw [operandCountField, BitVec.toNat_ushiftRight, Nat.shiftRight_eq_div_pow]

/-- HLT's opcode is one of the eleven, and asks for no operand. -/
theorem operandCount_opcHlt : operandCount opcHlt = 0 := operandCount_opcode .hlt

/-- One of the eleven opcode bytes with the operand bytes it asks for is the encoding of an instruction. -/
theorem exists_encode_of_assigned {op : Byte} {operands : List Byte} (hn : operands.length = operandCount op)
    (hop : op ∈ assignedOpcodes) : ∃ i : Instr, i.opcode = op ∧ i.operandBytes = operands := by
  by_cases hh : op = opcHlt
  · rw [hh, operandCount_opcHlt, List.length_eq_zero_iff] at hn
    exact ⟨.hlt, hh.symm, hn.symm⟩
  · obtain ⟨i, hi⟩ : ∃ i, dispatchTable op operands = some i :=
      Option.ne_none_iff_exists'.1 fun hnone => (dispatchTable_none_iff op operands hn hh).1 hnone hop
    obtain ⟨hopcode, hoperands, -⟩ := dispatchTable_sound hi
    exact ⟨i, hopcode.symm, hoperands.symm⟩

/-- An opcode byte that is none of the eleven is rejected by name once its operand bytes are there. -/
theorem decode_unassigned {op : Byte} {operands : List Byte} (rest : List Byte)
    (hn : operands.length = operandCount op) (hop : op ∉ assignedOpcodes) :
    decode (op :: operands ++ rest) = .error (.unsupportedOpcode op) := by
  have hh : op ≠ opcHlt := fun h => hop (by simp [h, assignedOpcodes])
  rw [decode_operands rest hh hn, (dispatchTable_none_iff op operands hn hh).2 hop]
  rfl

/-! ### The statements of 30_encoding.md about the decoder -/

/-- Settles O11: both directions go through the dispatch table's soundness and completeness. -/
theorem decodeIsTheInverseOfEncode : Obligations.DecodeIsTheInverseOfEncode := by
  unfold Obligations.DecodeIsTheInverseOfEncode
  exact ⟨decode_encode, fun _ _ _ => eq_encode_of_decode⟩

/-- Settles O15: the list of the statement is that of the assigned opcodes. -/
theorem exactlyElevenOpcodesDecode : Obligations.ExactlyElevenOpcodesDecode := by
  unfold Obligations.ExactlyElevenOpcodesDecode
  intro op operands rest hn
  refine ⟨fun hop => ?_, decode_unassigned rest hn⟩
  obtain ⟨i, rfl, rfl⟩ := exists_encode_of_assigned hn hop
  exact ⟨i, rfl, rfl, decode_encode i rest⟩

/-- Settles O14: the definition, with the field `N` as a quotient. -/
theorem operandCountIsTheTopTwoBits : Obligations.OperandCountIsTheTopTwoBits := by
  unfold Obligations.OperandCountIsTheTopTwoBits
  intro op
  rw [operandCount, operandCountField_eq_div]

/-- Settles O12: the three bytes of each word begin with an encoding, and 0xFF is not assigned. -/
theorem wordsOfTheSpecDecode : Obligations.WordsOfTheSpecDecode := by
  unfold Obligations.WordsOfTheSpecDecode
  simp only [decodeTableWord_eq_some_iff]
  refine ⟨⟨[], rfl⟩, ⟨[0], rfl⟩, ⟨[], rfl⟩, ⟨[0], rfl⟩, ⟨[0], rfl⟩, ⟨[0, 0], rfl⟩, ⟨[0, 0], rfl⟩, ?_⟩
  have hrejected : decode (tableWordBytes 8 0xFF) = .error (.unsupportedOpcode 0xFF) :=
    decode_unassigned (operands := []) [0, 0] rfl allOnes_not_assigned
  simp only [decodeTableWord, hrejected]

end Sys2Proof
end

section
/-! SUPPORT. What an instruction does when it raises no fault, once for each, and from it every way a step can answer a
next state. The statements about the pc, the store, the halt and the invariant are read off this inversion. -/

namespace Sys2Proof.Machine

/-! ### The effect of an instruction -/

/-- `x[a] <- f(x[a], x[b]) mod 256`, the effect that ADD, SUB and MUL share (42_arithmetic.md R100). -/
def ArithmeticEffect (f : Int → Int → Int) (a b : Byte) (s u : State) : Prop :=
  ∃ i j : Fin Config.numRegs, a.toNat = i.val ∧ b.toNat = j.val ∧
    u = s.writeReg i (wrapToByte (f (s.readReg i).toNat (s.readReg j).toNat))

/-- What an instruction does to the state when it raises no fault. -/
def Effect (i : Instr) (s u : State) : Prop :=
  match i with
  | .ldi a b => ∃ r : Fin Config.numRegs, a.toNat = r.val ∧ u = s.writeReg r b
  | .prn a => ∃ r : Fin Config.numRegs, a.toNat = r.val ∧ u = s.emit (s.readReg r)
  | .add a b => ArithmeticEffect (fun x y => x + y) a b s u
  | .sub a b => ArithmeticEffect (fun x y => x - y) a b s u
  | .mul a b => ArithmeticEffect (fun x y => x * y) a b s u
  | .push a => ∃ r : Fin Config.numRegs, a.toNat = r.val ∧ u = s.pushByte (s.decrementSp.readReg r)
  | .pop a => ∃ (r : Fin Config.numRegs) (v : Byte), a.toNat = r.val ∧ s.memRead s.sp.toNat = some v ∧
      u = (s.writeReg r v).incrementSp
  | .jmp a => ∃ r : Fin Config.numRegs, a.toNat = r.val ∧ u = s.redirectTo (s.readReg r)
  | .call a => ∃ r : Fin Config.numRegs, a.toNat = r.val ∧ s.pc + 2 ≤ 0xFF ∧
      u = (s.pushByte (BitVec.ofNat 8 (s.pc + 2))).redirectTo ((s.pushByte (BitVec.ofNat 8 (s.pc + 2))).readReg r)
  | .ret => ∃ v : Byte, s.memRead s.sp.toNat = some v ∧ u = (s.redirectTo v).incrementSp
  | .hlt => u = s.halt

theorem arithmetic_raise_or_effect {op : Byte} {f : Int → Int → Int} {a b : Byte} {s u : State}
    (h : arithmetic op f a b s = .next u) :
    (∃ info, u = s.raise info ∧ info.pc = s.pc) ∨ ArithmeticEffect f a b s u := by
  obtain hu | ⟨-, hu⟩ | ⟨-, -, hu⟩ := arithmetic_cases h
  · exact .inr hu
  · exact .inl ⟨_, hu, rfl⟩
  · exact .inl ⟨_, hu, rfl⟩

/-- An instruction raises a fault, and changes nothing else, or has its effect. -/
theorem exec_raise_or_effect {i : Instr} {s u : State} (h : exec i s = .next u) :
    (∃ info, u = s.raise info ∧ info.pc = s.pc) ∨ Effect i s u := by
  cases i with
  | ldi a b => exact (execLdi_cases h).symm.imp (fun hu => ⟨_, hu.2, rfl⟩) id
  | prn a => exact (execPrn_cases h).symm.imp (fun hu => ⟨_, hu.2, rfl⟩) id
  | add a b | sub a b | mul a b => exact arithmetic_raise_or_effect h
  | push a => exact (execPush_cases h).symm.imp (fun hu => ⟨_, hu.2, rfl⟩) id
  | pop a =>
    obtain hu | ⟨-, hu⟩ | ⟨-, -, hu⟩ := execPop_cases h
    · exact .inr hu
    · exact .inl ⟨_, hu, rfl⟩
    · exact .inl ⟨_, hu, rfl⟩
  | jmp a => exact (execJmp_cases h).symm.imp (fun hu => ⟨_, hu.2, rfl⟩) id
  | call a =>
    obtain hu | ⟨-, hu⟩ | ⟨-, -, hu⟩ := execCall_cases h
    · exact .inr hu
    · exact .inl ⟨_, hu, rfl⟩
    · exact .inl ⟨_, hu, rfl⟩
  | ret => exact (execRet_cases h).symm.imp (fun hu => ⟨_, hu.2, rfl⟩) id
  | hlt =>
    cases h
    exact .inr rfl

/-- The meaning of an instruction answers its effect. -/
theorem Effect.exec_eq {i : Instr} {s u : State} (h : Effect i s u) : exec i s = .next u := by
  cases i with
  | ldi a b | prn a | push a | jmp a =>
    obtain ⟨r, hr, rfl⟩ := h
    exact withRegister_legal hr
  | add a b | sub a b | mul a b =>
    obtain ⟨r, q, hr, hq, rfl⟩ := h
    exact arithmetic_legal hr hq
  | pop a =>
    obtain ⟨r, v, hr, hv, rfl⟩ := h
    exact (withRegister_legal hr).trans (withMemByte_readable hv)
  | call a =>
    obtain ⟨r, hr, hpc, rfl⟩ := h
    exact execCall_legal hr hpc
  | ret =>
    obtain ⟨v, hv, rfl⟩ := h
    exact withMemByte_readable hv
  | hlt =>
    cases h
    rfl

/-! ### What the effects keep -/

namespace Effect

variable {i : Instr} {s u : State}

theorem run_eq (h : Effect i s u) (hi : i ≠ .hlt) : u.run = s.run := by
  cases i with
  | ldi a b | prn a | push a | jmp a => obtain ⟨r, -, rfl⟩ := h; rfl
  | add a b | sub a b | mul a b => obtain ⟨r, q, -, -, rfl⟩ := h; rfl
  | pop a => obtain ⟨r, v, -, -, rfl⟩ := h; rfl
  | call a => obtain ⟨r, -, -, rfl⟩ := h; rfl
  | ret => obtain ⟨v, -, rfl⟩ := h; rfl
  | hlt => exact absurd rfl hi

/-- The transfers, and no others, set the redirect signal, and the pc to a byte; the others leave both alone
(10_state.md R21). -/
theorem redirect_and_pc (h : Effect i s u) :
    (isTransfer i = true ∧ u.redirect = true ∧ u.pc ≤ 0xFF) ∨
    (isTransfer i = false ∧ u.redirect = s.redirect ∧ u.pc = s.pc) := by
  have byte (v : Byte) : v.toNat ≤ 0xFF := Nat.le_of_lt_succ v.isLt
  cases i with
  | ldi a b | prn a | push a => obtain ⟨r, -, rfl⟩ := h; exact .inr ⟨rfl, rfl, rfl⟩
  | add a b | sub a b | mul a b => obtain ⟨r, q, -, -, rfl⟩ := h; exact .inr ⟨rfl, rfl, rfl⟩
  | pop a => obtain ⟨r, v, -, -, rfl⟩ := h; exact .inr ⟨rfl, rfl, rfl⟩
  | jmp a => obtain ⟨r, -, rfl⟩ := h; exact .inl ⟨rfl, rfl, byte _⟩
  | call a => obtain ⟨r, -, -, rfl⟩ := h; exact .inl ⟨rfl, rfl, byte _⟩
  | ret => obtain ⟨v, -, rfl⟩ := h; exact .inl ⟨rfl, rfl, byte _⟩
  | hlt => cases h; exact .inr ⟨rfl, rfl, rfl⟩

/-- Memory is as before, or PUSH or CALL has pushed a byte (20_memory.md R36). -/
theorem mem_eq_or_pushed (h : Effect i s u) :
    u.mem = s.mem ∨ ∃ a v : Byte, (i = .push a ∨ i = .call a) ∧ u.mem = (s.pushByte v).mem := by
  cases i with
  | ldi a b | prn a | jmp a => obtain ⟨r, -, rfl⟩ := h; exact .inl rfl
  | add a b | sub a b | mul a b => obtain ⟨r, q, -, -, rfl⟩ := h; exact .inl rfl
  | push a => obtain ⟨r, -, rfl⟩ := h; exact .inr ⟨a, _, .inl rfl, rfl⟩
  | pop a => obtain ⟨r, v, -, -, rfl⟩ := h; exact .inl rfl
  | call a => obtain ⟨r, -, -, rfl⟩ := h; exact .inr ⟨a, _, .inr rfl, rfl⟩
  | ret => obtain ⟨v, -, rfl⟩ := h; exact .inl rfl
  | hlt => cases h; exact .inl rfl

end Effect

/-! ### Bytes at an address -/

theorem memRead_of_bytesAt {s : State} {addr : Nat} {bytes : List Byte} (h : bytesAt s addr bytes = true)
    {k : Nat} (hk : k < bytes.length) : s.memRead (addr + k) = some bytes[k] := by
  induction bytes generalizing addr k with
  | nil => exact absurd hk (Nat.not_lt_zero k)
  | cons v vs ih =>
    obtain ⟨hv, hvs⟩ := (bytesAt_cons s addr v vs).1 h
    cases k with
    | zero => exact hv
    | succ k =>
      have hshift : addr + (k + 1) = addr + 1 + k := by omega
      rw [hshift]
      exact ih hvs (Nat.lt_of_succ_lt_succ hk)

theorem encode_length (i : Instr) : (encode i).length = 1 + operandCount i.opcode := (Laws.EncodedForm.holds i).2

/-- The bytes of an instruction in memory end within it (20_memory.md R30). -/
theorem add_length_le_of_bytesAt {s : State} {addr : Nat} {i : Instr} (h : bytesAt s addr (encode i) = true) :
    addr + (encode i).length ≤ 0x100 := by
  have hlast : i.operandBytes.length < (encode i).length := Nat.lt_succ_self _
  have hle := State.memRead_exists (memRead_of_bytesAt h hlast)
  exact Nat.succ_le_succ hle

/-! ### Every way a step can answer a next state -/

/-- A step of an instruction whose bytes stand at the pc. -/
theorem step_fetched {s u : State} {i : Instr} (hrun : s.run = .running) (hbytes : bytesAt s s.pc (encode i) = true)
    (hexec : exec i s.clearRedirect = .next u) : step s = .next (u.pcUpdate (operandCount i.opcode)) :=
  (step_running hrun).trans (loopPass_fetched hbytes hexec)

/-- The byte `0x01` at the pc is the whole of HLT, so the step halts (40_execution_loop.md R72). -/
theorem step_hlt {s : State} (hrun : s.run = .running) (hop : s.memRead s.pc = some opcHlt) :
    step s = .next s.clearRedirect.halt := by
  have hbytes : bytesAt s s.pc (encode .hlt) = true := (bytesAt_cons ..).2 ⟨hop, rfl⟩
  exact step_fetched hrun hbytes rfl

/-- A step faults and changes nothing else, or halts and changes nothing else, or goes on with the effect of the
instruction at the pc and the pc update. -/
theorem step_cases {s t : State} (h : step s = .next t) :
    (∃ info, t = s.clearRedirect.raise info ∧ info.pc = s.pc) ∨
    (s.memRead s.pc = some opcHlt ∧ t = s.clearRedirect.halt) ∨
    (∃ i u, bytesAt s s.pc (encode i) = true ∧ Effect i s.clearRedirect u ∧ i ≠ .hlt ∧ u.run = .running ∧
      t = u.pcUpdate (operandCount i.opcode)) := by
  obtain ⟨hrun, hpass⟩ := step_next_running h
  obtain ⟨info, hfetch, ht⟩ | ⟨i, u, hbytes, hexec, ht⟩ := loopPass_cases hpass
  · refine .inl ⟨info, ht, ?_⟩
    obtain ⟨-, rfl⟩ | ⟨_, _, _, _, _, _, _, rfl⟩ | ⟨_, _, _, _, _, _, rfl⟩ := State.fetchInstr_error hfetch
    · rfl
    · rfl
    · rfl
  · obtain ⟨info, rfl, hinfo⟩ | heffect := exec_raise_or_effect hexec
    · exact .inl ⟨info, ht, hinfo⟩
    · by_cases hi : i = .hlt
      · subst hi
        cases heffect
        exact .inr (.inl ⟨((bytesAt_cons ..).1 hbytes).1, ht⟩)
      · exact .inr (.inr ⟨i, u, hbytes, heffect, hi, (heffect.run_eq hi).trans hrun, ht⟩)

/-- The pc update after a transfer consumes the signal and keeps the pc (40_execution_loop.md R76). -/
theorem Effect.pcUpdate_of_transfer {i : Instr} {s u : State} (h : Effect i s.clearRedirect u)
    (hrun : u.run = .running) (hi : isTransfer i = true) :
    u.pcUpdate (operandCount i.opcode) = { u with redirect := false } := by
  obtain ⟨-, hset, -⟩ | ⟨hno, -, -⟩ := h.redirect_and_pc
  · exact State.pcUpdate_redirected _ hrun hset
  · cases hi.symm.trans hno

/-- The pc update after any other instruction advances the pc (40_execution_loop.md R76). -/
theorem Effect.pcUpdate_of_advance {i : Instr} {s u : State} (h : Effect i s.clearRedirect u)
    (hrun : u.run = .running) (hi : isTransfer i = false) :
    u.pcUpdate (operandCount i.opcode) = { u with pc := s.pc + (encode i).length, redirect := false } := by
  obtain ⟨hyes, -, -⟩ | ⟨-, hclear, hpc⟩ := h.redirect_and_pc
  · cases hi.symm.trans hyes
  · rw [State.pcUpdate_running _ hrun hclear, hpc, hclear, encode_length, ← Nat.add_assoc]
    rfl

theorem Effect.pcUpdate_redirect {i : Instr} {s u : State} (h : Effect i s.clearRedirect u)
    (hrun : u.run = .running) : (u.pcUpdate (operandCount i.opcode)).redirect = false := by
  cases hi : isTransfer i with
  | true => rw [h.pcUpdate_of_transfer hrun hi]
  | false => rw [h.pcUpdate_of_advance hrun hi]

/-- A step that goes on leaves the pc at most one past memory, since it has fetched its bytes (DEDUCED, log entry 3). -/
theorem Effect.pcUpdate_pc_le {i : Instr} {s u : State} (h : Effect i s.clearRedirect u) (hrun : u.run = .running)
    (hbytes : bytesAt s s.pc (encode i) = true) : (u.pcUpdate (operandCount i.opcode)).pc ≤ 0x100 := by
  obtain ⟨hi, -, hpc⟩ | ⟨hi, -⟩ := h.redirect_and_pc
  · rw [h.pcUpdate_of_transfer hrun hi]
    exact hpc.trans (by decide)
  · rw [h.pcUpdate_of_advance hrun hi]
    exact add_length_le_of_bytesAt hbytes

/-! ### The step of an instruction that has its effect -/

theorem step_of_transfer {i : Instr} {s u : State} (hrun : s.run = .running)
    (hbytes : bytesAt s s.pc (encode i) = true) (h : Effect i s.clearRedirect u) (hi : isTransfer i = true) :
    step s = .next { u with redirect := false } := by
  have hu : u.run = .running := (h.run_eq (by rintro rfl; cases hi)).trans hrun
  rw [step_fetched hrun hbytes h.exec_eq, h.pcUpdate_of_transfer hu hi]

theorem step_of_advance {i : Instr} {s u : State} (hrun : s.run = .running)
    (hbytes : bytesAt s s.pc (encode i) = true) (h : Effect i s.clearRedirect u) (hi : isTransfer i = false)
    (hh : i ≠ .hlt) : step s = .next { u with pc := s.pc + (encode i).length, redirect := false } := by
  have hu : u.run = .running := (h.run_eq hh).trans hrun
  rw [step_fetched hrun hbytes h.exec_eq, h.pcUpdate_of_advance hu hi]

/-- A fault that a meaning raises is the step's (60_exceptions.md R138). -/
theorem faultsWith_of_exec_raise {i : Instr} {s : State} {info : FaultInfo} (hrun : s.run = .running)
    (hbytes : bytesAt s s.pc (encode i) = true) (h : exec i s.clearRedirect = .next (s.clearRedirect.raise info)) :
    FaultsWith s info :=
  step_fetched hrun hbytes h

/-! ### The store of a step -/

/-- Memory after a step: as before, or with one byte pushed by the PUSH or CALL at the pc. -/
theorem step_mem_eq_or_pushed {s t : State} (h : step s = .next t) :
    t.mem = s.mem ∨ ∃ a v : Byte,
      (bytesAt s s.pc (encode (.push a)) = true ∨ bytesAt s s.pc (encode (.call a)) = true) ∧
      t.mem = (s.pushByte v).mem := by
  obtain ⟨info, rfl, -⟩ | ⟨-, rfl⟩ | ⟨i, u, hbytes, heffect, -, -, rfl⟩ := step_cases h
  · exact .inl rfl
  · exact .inl rfl
  · rw [State.pcUpdate_mem]
    refine heffect.mem_eq_or_pushed.imp id fun ⟨a, v, hi, hmem⟩ => ⟨a, v, ?_, hmem⟩
    obtain rfl | rfl := hi
    · exact .inl hbytes
    · exact .inr hbytes

theorem State.memRead_eq_of_mem_eq {s t : State} (h : t.mem = s.mem) (addr : Nat) :
    t.memRead addr = s.memRead addr := by
  rw [State.memRead, h, State.memRead]

/-- The wrap of the address a push stores at, by arithmetic (decision D10). -/
theorem State.pushAddress_toNat (s : State) : s.pushAddress.toNat = (s.sp.toNat + 255) % 256 := by
  rw [State.pushAddress, BitVec.toNat_sub, Nat.add_comm]
  rfl

end Sys2Proof.Machine
end

section
/-! SUPPORT. What is read off the inversion of a step: the invariant, where a step stores, when it halts and where it
leaves the pc. -/

namespace Sys2Proof.Machine

/-! ### The invariant -/

theorem step_keeps_inv {s t : State} (hs : s.Inv) (h : step s = .next t) : t.Inv := by
  obtain ⟨hmem, -, hpc⟩ := hs
  have hwf : Memory.wf t.mem = true := by
    obtain heq | ⟨a, v, -, heq⟩ := step_mem_eq_or_pushed h
    · rwa [heq]
    · rw [heq]
      exact s.pushByte_wf v hmem
  obtain ⟨info, rfl, -⟩ | ⟨-, rfl⟩ | ⟨i, u, hbytes, heffect, -, hrun, rfl⟩ := step_cases h
  · exact ⟨hwf, rfl, hpc⟩
  · exact ⟨hwf, rfl, hpc⟩
  · have hle := heffect.pcUpdate_pc_le hrun hbytes
    exact ⟨hwf, heffect.pcUpdate_redirect hrun, by omega⟩

theorem State.reset_inv : State.reset.Inv := ⟨rfl, rfl, by decide⟩

theorem boot_inv {image : List Byte} {t : State} (h : boot image = .next t) : t.Inv := by
  unfold boot load at h
  split at h
  · cases h
  · cases h
    obtain ⟨hmem, hredirect, hpc⟩ := State.reset_inv
    exact ⟨State.placeBytes_wf _ _ _ hmem, (State.placeBytes_redirect ..).trans hredirect,
      (State.placeBytes_pc ..).trans_le hpc⟩

/-- Settles O51: memory by the inversion of the store, the signal and the pc by the pc update. -/
theorem stepKeepsTheInvariant : Obligations.StepKeepsTheInvariant := by
  unfold Obligations.StepKeepsTheInvariant
  exact fun _ _ => step_keeps_inv

/-- Settles O52: LOAD writes cells that exist, in order, and nothing else. -/
theorem runsStartInTheInvariant : Obligations.RunsStartInTheInvariant := by
  unfold Obligations.RunsStartInTheInvariant
  exact ⟨State.reset_inv, fun _ _ => boot_inv⟩

/-! ### The store -/

/-- Settles O8: a push only makes a cell readable. -/
theorem validBitsAreNeverCleared : Obligations.ValidBitsAreNeverCleared := by
  unfold Obligations.ValidBitsAreNeverCleared
  intro s t h addr hvalid
  obtain hmem | ⟨a, v, -, hmem⟩ := step_mem_eq_or_pushed h
  · rwa [State.memRead_eq_of_mem_eq hmem]
  · rw [State.memRead_eq_of_mem_eq hmem, State.pushByte_memRead]
    split
    · exact Option.some_ne_none v
    · exact hvalid

/-- Settles O9: a read that differs is at the address of the byte that the PUSH or CALL at the pc has pushed. -/
theorem onlyPushAndCallStore : Obligations.OnlyPushAndCallStore := by
  unfold Obligations.OnlyPushAndCallStore
  intro s t h addr hchanged
  obtain hmem | ⟨a, v, hbytes, hmem⟩ := step_mem_eq_or_pushed h
  · exact absurd (State.memRead_eq_of_mem_eq hmem addr) hchanged
  · rw [State.memRead_eq_of_mem_eq hmem, State.pushByte_memRead] at hchanged
    have haddr : addr = s.pushAddress.toNat := by_contra fun hne => hchanged (if_neg hne)
    exact ⟨haddr, haddr.trans s.pushAddress_toNat, a, hbytes⟩

/-- A cell after some writes: the last of them to its address, or what it held. -/
theorem State.writeAll_memRead (s : State) (writes : List (Byte × Byte)) (addr : Nat) :
    (s.writeAll writes).memRead addr = (lastWritten addr writes).or (s.memRead addr) := by
  induction writes generalizing s with
  | nil => rfl
  | cons w ws ih =>
    rw [State.writeAll, ih, memWriteStoresAndMakesValid, lastWritten]
    cases lastWritten addr ws with
    | some v => rfl
    | none =>
      by_cases haddr : w.1.toNat = addr
      · simp [haddr]
      · simp [haddr, Ne.symm haddr]

/-- Settles O7: after reset no cell holds anything, so a cell holds the last write to it. -/
theorem cellHoldsTheMostRecentWrite : Obligations.CellHoldsTheMostRecentWrite := by
  unfold Obligations.CellHoldsTheMostRecentWrite
  intro writes addr
  rw [State.writeAll_memRead, State.reset_memRead, Option.or_none]

/-! ### The halt -/

/-- Settles O20: a byte `0x01` at the pc leaves the step no other outcome. -/
theorem haltsExactlyOnTheHltByte : Obligations.HaltsExactlyOnTheHltByte := by
  unfold Obligations.HaltsExactlyOnTheHltByte
  refine ⟨fun s t h => ⟨fun ht => ?_, fun hop => ?_⟩, fun s => step_hlt⟩
  · obtain ⟨info, rfl, -⟩ | ⟨hop, -⟩ | ⟨i, u, -, -, -, hrun, rfl⟩ := step_cases h
    · cases ht
    · exact hop
    · rw [State.pcUpdate_run, hrun] at ht
      cases ht
  · rw [step_hlt (step_next_running h).1 hop] at h
    cases h
    rfl

/-! ### The pc -/

/-- Settles O16: bytes that decode begin with the instruction's encoding, so the step fetches it. -/
theorem stepRunsTheDecodedInstruction : Obligations.StepRunsTheDecodedInstruction := by
  unfold Obligations.StepRunsTheDecodedInstruction
  intro s bytes rest i hrun hbytes hdecode
  rw [eq_encode_of_decode hdecode] at hbytes
  obtain ⟨u, hexec⟩ := exec_next i s.clearRedirect
  have hstep := step_fetched hrun ((bytesAt_append ..).1 hbytes).1 hexec
  refine ⟨u, hexec, fun hended => ?_, fun hgoes hset => ?_, fun hgoes hclear => ?_⟩
  · rwa [State.pcUpdate_stopped _ hended] at hstep
  · rwa [State.pcUpdate_redirected _ hgoes hset] at hstep
  · rwa [State.pcUpdate_running _ hgoes hclear] at hstep

/-- Settles O17: a meaning that ends running has its effect, and the pc update reads the signal the effect set. -/
theorem pcIsSetOrAdvancedNeverBoth : Obligations.PcIsSetOrAdvancedNeverBoth := by
  unfold Obligations.PcIsSetOrAdvancedNeverBoth
  intro s u i hrun hbytes hexec hgoes
  obtain ⟨info, rfl, -⟩ | heffect := exec_raise_or_effect (s := s.clearRedirect) hexec
  · cases hgoes
  · have hstep := step_fetched hrun hbytes hexec
    obtain ⟨hi, hset, -⟩ | ⟨hi, hclear, hpc⟩ := heffect.redirect_and_pc
    · rw [heffect.pcUpdate_of_transfer hgoes hi] at hstep
      exact ⟨by simp [hi, hset], _, hstep, rfl, fun _ => rfl, fun hno => absurd hno (by simp [hi])⟩
    · rw [heffect.pcUpdate_of_advance hgoes hi] at hstep
      exact ⟨by simp [hi, hclear], _, hstep, rfl, fun hyes => absurd hyes (by simp [hi]), 
        fun _ => ⟨hpc, by rw [encode_length, Nat.add_assoc]⟩⟩

/-- Settles O19: `Effect.pcUpdate_pc_le`, for the steps that go on. -/
theorem pcNeverPassesOneBeyondMemory : Obligations.PcNeverPassesOneBeyondMemory := by
  unfold Obligations.PcNeverPassesOneBeyondMemory
  intro s t h hgoes
  obtain ⟨info, rfl, -⟩ | ⟨-, rfl⟩ | ⟨i, u, hbytes, heffect, -, hrun, rfl⟩ := step_cases h
  · cases hgoes
  · cases hgoes
  · exact heffect.pcUpdate_pc_le hrun hbytes

/-- Settles O18: the transfers leave the pc their effect set, the others are as long as their encoding. -/
theorem pcAfterEveryStep : Obligations.PcAfterEveryStep := by
  unfold Obligations.PcAfterEveryStep
  intro s t h
  obtain ⟨info, rfl, -⟩ | ⟨-, rfl⟩ | ⟨i, u, hbytes, heffect, hi, hrun, rfl⟩ := step_cases h
  · exact ⟨fun _ => rfl, fun hgoes => by cases hgoes⟩
  · exact ⟨fun _ => rfl, fun hgoes => by cases hgoes⟩
  · refine ⟨fun hended => absurd ((u.pcUpdate_run _).trans hrun) hended, fun _ => ⟨i, hbytes, ?_⟩⟩
    cases i with
    | ldi a b | add a b | sub a b | mul a b | prn a | push a | pop a =>
      rw [heffect.pcUpdate_of_advance hrun rfl]
      rfl
    | jmp a =>
      rw [heffect.pcUpdate_of_transfer hrun rfl]
      obtain ⟨r, hr, rfl⟩ := heffect
      exact ⟨r, hr, rfl⟩
    | call a =>
      rw [heffect.pcUpdate_of_transfer hrun rfl]
      obtain ⟨r, hr, -, rfl⟩ := heffect
      exact ⟨r, hr, rfl⟩
    | ret =>
      rw [heffect.pcUpdate_of_transfer hrun rfl]
      obtain ⟨v, hv, rfl⟩ := heffect
      exact ⟨v, hv, rfl⟩
    | hlt => exact hi rfl

end Sys2Proof.Machine
end

section
/-! SUPPORT. The faults (60_exceptions.md): what raises each of them inside a meaning and in a step, and that nothing
else does. -/

namespace Sys2Proof.Machine

/-! ### Operands that fault -/

theorem exists_register_of_le_seven {a : Byte} (h : a.toNat ≤ 7) : ∃ i : Fin Config.numRegs, a.toNat = i.val :=
  (register_cases a).resolve_right (Nat.not_lt.2 h)

/-- ADD, SUB and MUL check the second operand after the first (40_execution_loop.md R75). -/
theorem arithmetic_secondIllegal {op : Byte} {f : Int → Int → Int} {a b : Byte} {s : State} (ha : a.toNat ≤ 7)
    (hb : 7 < b.toNat) : arithmetic op f a b s = .next (s.raise (.outOfBounds s.pc op b.toNat)) := by
  obtain ⟨i, hi⟩ := exists_register_of_le_seven ha
  exact (withRegister_legal hi).trans (withRegister_illegal hb)

/-- CALL with a return address that fits no byte (decision D6). -/
theorem execCall_returnAddressTooHigh {a : Byte} {s : State} (ha : a.toNat ≤ 7) (hpc : 0xFF < s.pc + 2) :
    execCall a s = .next (s.raise (.outOfBounds s.pc opcCall (s.pc + 2))) := by
  obtain ⟨i, hi⟩ := exists_register_of_le_seven ha
  rw [← s.returnAddress_eq] at hpc ⊢
  exact (withRegister_legal hi).trans (if_pos hpc)

/-! ### Bytes that fault -/

/-- The operand bytes an opcode asks for, where they are readable. -/
theorem exists_operands_of_operandsReadable {s : State} {op : Byte} (h : operandsReadable s op = true) :
    ∃ operands : List Byte, operands.length = operandCount op ∧ bytesAt s (s.pc + 1) operands = true := by
  cases hfetch : s.fetchOperands (s.pc + 1) (operandCount op) with
  | ok operands => exact ⟨operands, State.fetchOperands_ok.1 hfetch⟩
  | error info =>
    obtain ⟨k, hk, hnone, -⟩ := State.fetchOperands_error hfetch
    exact absurd hnone (memRead_ne_none_of_operandsReadable h hk)

theorem faultsWith_unsupportedOperation {s : State} {op : Byte} (hrun : s.run = .running)
    (hop : s.memRead s.pc = some op) (hu : op ∉ assignedOpcodes) (h : operandsReadable s op = true) :
    FaultsWith s (.unsupportedOperation s.pc op) := by
  obtain ⟨operands, hn, hbytes⟩ := exists_operands_of_operandsReadable h
  have hbytes' : bytesAt s.clearRedirect (s.pc + 1) operands = true := by rwa [bytesAt_clearRedirect]
  exact faultsWith_of_fetchInstr_error hrun (State.fetchInstr_unassigned (s := s.clearRedirect) hop hu hn hbytes')

/-- The bytes of a CALL at the pc end within memory, so its return address is at most 0x100. -/
theorem pc_le_of_call {s : State} {a : Byte} (h : bytesAt s s.pc (encode (.call a)) = true) : s.pc ≤ 0xFE :=
  Nat.le_of_add_le_add_right (b := 2) (add_length_le_of_bytesAt h)

/-! ### The statements of 40_execution_loop.md section 3, 60_exceptions.md, and those of the rules' faults -/

/-- Settles O22: the register check and the memory read answer a next state in both of their branches. -/
theorem everyMeaningHasANextState : Obligations.EveryMeaningHasANextState := by
  unfold Obligations.EveryMeaningHasANextState
  exact exec_next

/-- Settles O25: the operand bytes are fetched, and the dispatch lookup finds no handler. -/
theorem unassignedOpcodeFaults : Obligations.UnassignedOpcodeFaults := by
  unfold Obligations.UnassignedOpcodeFaults
  exact fun _ _ => faultsWith_unsupportedOperation

/-- Settles O26: the check of the operand comes before the handler in each of the nine meanings. -/
theorem registerIndexAboveSevenFaults : Obligations.RegisterIndexAboveSevenFaults := by
  unfold Obligations.RegisterIndexAboveSevenFaults
  refine fun s a b => ⟨fun ha => ?_, fun ha hb => ?_⟩
  · have hfault (op : Byte) (handler : Fin Config.numRegs → Host.Outcome State Fault Refusal) :
        withRegister op a s handler = .next (s.raise (.outOfBounds s.pc op a.toNat)) := withRegister_illegal ha
    exact ⟨hfault .., hfault .., hfault .., hfault .., hfault .., hfault .., hfault .., hfault .., hfault ..⟩
  · have hfault (op : Byte) (f : Int → Int → Int) :
        arithmetic op f a b s = .next (s.raise (.outOfBounds s.pc op b.toNat)) := arithmetic_secondIllegal ha hb
    exact ⟨hfault .., hfault .., hfault ..⟩

/-- Settles O27: below 0xFE the step of a CALL goes on, and above it the CALL's bytes would not be in memory. -/
theorem callReturnAddressFaults : Obligations.CallReturnAddressFaults := by
  unfold Obligations.CallReturnAddressFaults
  refine ⟨fun s a => execCall_returnAddressTooHigh, fun s a hrun hbytes ha => ?_⟩
  have hfault (hpc : s.pc = 0xFE) : FaultsWith s (.outOfBounds s.pc 0x50 (s.pc + 2)) :=
    faultsWith_of_exec_raise hrun hbytes
      (execCall_returnAddressTooHigh (s := s.clearRedirect) ha (by rw [State.clearRedirect_pc]; omega))
  refine ⟨⟨fun ⟨value, hvalue⟩ => ?_, fun hpc => ⟨_, hfault hpc⟩⟩, fun hpc => ?_⟩
  · by_contra hne
    have hle := pc_le_of_call hbytes
    obtain ⟨i, hi⟩ := exists_register_of_le_seven ha
    have heffect : Effect (.call a) s.clearRedirect _ :=
      ⟨i, hi, by rw [State.clearRedirect_pc]; omega, rfl⟩
    have hstep := hvalue.symm.trans (step_of_transfer hrun hbytes heffect rfl)
    injection hstep with hstate
    cases (congrArg State.run hstate).trans hrun
  · have hfaults := hfault hpc
    rwa [hpc] at hfaults

/-- Settles O28: the register of POP is legal, and then both read the cell at the stack pointer. -/
theorem poppingAnUnwrittenCellFaults : Obligations.PoppingAnUnwrittenCellFaults := by
  unfold Obligations.PoppingAnUnwrittenCellFaults
  refine fun s hnone => ⟨fun a ha => ?_, withMemByte_unreadable hnone⟩
  obtain ⟨i, hi⟩ := exists_register_of_le_seven ha
  exact (withRegister_legal hi).trans (withMemByte_unreadable hnone)

/-- Settles O29: of the ways a step can answer, only the raise of a fault ends `Faulted`. -/
theorem faultingStepChangesOnlyTheRunState : Obligations.FaultingStepChangesOnlyTheRunState := by
  unfold Obligations.FaultingStepChangesOnlyTheRunState
  intro s t info h hfaulted
  obtain ⟨info', rfl, hpc⟩ | ⟨-, rfl⟩ | ⟨i, u, -, -, -, hrun, rfl⟩ := step_cases h
  · cases hfaulted
    exact ⟨rfl, hpc⟩
  · cases hfaulted
  · rw [State.pcUpdate_run, hrun] at hfaulted
    cases hfaulted

/-- Settles O30: the faults of the fetch and the faults of the meanings, one by one. -/
theorem faultsComeOnlyFromTheirCauses : Obligations.FaultsComeOnlyFromTheirCauses := by
  unfold Obligations.FaultsComeOnlyFromTheirCauses
  intro s t info h hfaulted
  obtain ⟨hrun, hpass⟩ := step_next_running h
  obtain ⟨info', hfetch, rfl⟩ | ⟨i, u, hbytes, hexec, rfl⟩ := loopPass_cases hpass
  · cases hfaulted
    obtain ⟨hnone, rfl⟩ | ⟨op, k, -, -, hk, hnone, -, rfl⟩ | ⟨op, _, hop, hu, -, -, rfl⟩ :=
      State.fetchInstr_error hfetch
    · exact ⟨hnone, .inl rfl⟩
    · have hle := operandCount_le_two op
      refine ⟨hnone, .inr ?_⟩
      obtain rfl | rfl : k = 0 ∨ k = 1 := by omega
      · exact .inl rfl
      · exact .inr (.inl rfl)
    · exact ⟨hop, hu⟩
  · rw [State.pcUpdate_run] at hfaulted
    obtain ⟨r, hr, hbad, rfl⟩ | ⟨a, rfl, hret, rfl⟩ | ⟨hi, hnone, rfl⟩ :=
      exec_faulted_cases (s := s.clearRedirect) hrun hexec hfaulted
    · exact ⟨i, hbytes, rfl, .inl ⟨r, hr, hbad, rfl⟩⟩
    · have hle := pc_le_of_call hbytes
      rw [State.clearRedirect_pc] at hret
      have hpc : s.pc = 0xFE := by omega
      exact ⟨.call a, hbytes, rfl, .inr ⟨hpc, by rw [State.clearRedirect_pc, hpc], a, rfl⟩⟩
    · refine ⟨hnone, .inr (.inr (.inr ⟨rfl, ?_⟩))⟩
      obtain rfl | ⟨a, rfl⟩ := hi
      · exact .inl hbytes
      · exact .inr ⟨a, hbytes⟩

end Sys2Proof.Machine
end

section
/-! SUPPORT. The instructions one by one (41_data_movement.md to 44_control_transfer.md): the result of each, that it
completes, and its frame; and which registers an instruction reads and writes (10_state.md section 2). -/

namespace Sys2Proof.Machine

/-! ### Frames of the operations -/

theorem State.writeReg_sameRegs (s : State) (i : Fin Config.numRegs) (v : Byte) :
    SameRegsExcept [i] s (s.writeReg i v) :=
  fun _ hj => s.writeReg_readReg_other v (List.ne_of_not_mem_cons hj)

theorem State.pushByte_sameRegs (s : State) (v : Byte) : SameRegsExcept [7] s (s.pushByte v) :=
  fun j hj => (s.pushByte_readReg v j).trans (if_neg (List.ne_of_not_mem_cons hj))

theorem State.incrementSp_sameRegs (s : State) : SameRegsExcept [7] s s.incrementSp :=
  fun j hj => (s.incrementSp_readReg j).trans (if_neg (List.ne_of_not_mem_cons hj))

/-- POP's two writes, to its register and to the stack pointer. -/
theorem State.writeReg_incrementSp_sameRegs (s : State) (i : Fin Config.numRegs) (v : Byte) :
    SameRegsExcept [i, 7] s (s.writeReg i v).incrementSp := by
  intro j hj
  obtain ⟨hi, h7⟩ : j ≠ i ∧ j ≠ 7 := by simpa using hj
  rw [State.incrementSp_readReg, if_neg h7, s.writeReg_readReg_other v hi]

theorem State.pushByte_sameMem (s : State) (v : Byte) : SameMemExcept [s.pushAddress.toNat] s (s.pushByte v) :=
  fun addr haddr => (s.pushByte_memRead v addr).trans (if_neg (List.ne_of_not_mem_cons haddr))

/-! ### Values -/

theorem State.pushByte_memRead_pushAddress (s : State) (v : Byte) :
    (s.pushByte v).memRead s.pushAddress.toNat = some v :=
  (s.pushByte_memRead v _).trans (if_pos rfl)

theorem State.pushByte_memRead_sp (s : State) (v : Byte) :
    (s.pushByte v).memRead (s.pushByte v).sp.toNat = some v := by
  rw [State.pushByte_sp]
  exact s.pushByte_memRead_pushAddress v

/-- The byte that PUSH stores: its register, read after the decrement (decision D11). -/
theorem State.decrementSp_readReg_eq (s : State) (i : Fin 8) :
    s.decrementSp.readReg i = if i = 7 then s.pushAddress else s.readReg i :=
  s.decrementSp_readReg i

/-- CALL's return address as the byte it pushes. -/
def State.returnByte (s : State) : Byte := BitVec.ofNat 8 (s.pc + 2)

theorem State.returnByte_toNat (s : State) (h : s.pc + 2 ≤ 0xFF) : s.returnByte.toNat = s.pc + 2 :=
  (BitVec.toNat_ofNat _ 8).trans (Nat.mod_eq_of_lt (Nat.lt_succ_of_le h))

/-- The wrap of the increment, by arithmetic (decision D10). -/
theorem State.incrementSp_readReg_seven_toNat (s : State) :
    (s.incrementSp.readReg 7).toNat = (s.sp.toNat + 1) % 256 :=
  (congrArg BitVec.toNat s.incrementSp_sp).trans (BitVec.toNat_add s.sp 1)

theorem State.writeReg_wrapToByte_toNat (s : State) (i : Fin Config.numRegs) (n : Int) :
    (((s.writeReg i (wrapToByte n)).readReg i).toNat : Int) = n % 256 := by
  rw [State.writeReg_readReg_same, wrapToByte_toNat]

/-- ADD, SUB and MUL at once: the exact result modulo 256 and the frame (42_arithmetic.md R100). -/
theorem arithmetic_exact (op : Byte) (f : Int → Int → Int) (s : State) {a b : Byte} {i j : Fin 8}
    (hi : a.toNat = i.val) (hj : b.toNat = j.val) :
    ∃ t, arithmetic op f a b s = .next t ∧
      ((t.readReg i).toNat : Int) = f (s.readReg i).toNat (s.readReg j).toNat % 256 ∧
      SameRegsExcept [i] s t ∧ SameMemExcept [] s t ∧ SameControl s t ∧ SameOut s t :=
  ⟨_, arithmetic_legal hi hj, s.writeReg_wrapToByte_toNat i _, s.writeReg_sameRegs i _, fun _ _ => rfl,
    ⟨rfl, rfl, rfl⟩, rfl⟩

/-! ### Signed and unsigned operands -/

/-- The reduction to a byte looks at the residue modulo 256 only. -/
theorem wrapToByte_eq_of_modEq {m n : Int} (h : m ≡ n [ZMOD 256]) : wrapToByte m = wrapToByte n := by
  apply BitVec.eq_of_toNat_eq
  have hresidue : ((wrapToByte m).toNat : Int) = (wrapToByte n).toNat := by
    rw [wrapToByte_toNat, wrapToByte_toNat, h]
  exact_mod_cast hresidue

/-- The two readings of a byte are congruent modulo 256. -/
theorem toNat_modEq_toInt (v : Byte) : (v.toNat : Int) ≡ v.toInt [ZMOD 256] := by
  rw [BitVec.toInt_eq_toNat_bmod]
  exact Int.bmod_emod.symm

/-- ADD, SUB and MUL of signed readings, for any operation that respects congruence. -/
theorem arithmetic_signed (op : Byte) (f : Int → Int → Int) (s : State) {a b : Byte} {i j : Fin 8}
    (hf : ∀ {m m' n n' : Int}, m ≡ m' [ZMOD 256] → n ≡ n' [ZMOD 256] → f m n ≡ f m' n' [ZMOD 256])
    (hi : a.toNat = i.val) (hj : b.toNat = j.val) :
    arithmetic op f a b s =
      .next (s.writeReg i (BitVec.ofInt 8 (f (s.readReg i).toInt (s.readReg j).toInt))) := by
  rw [arithmetic_legal hi hj, wrapToByte_eq_of_modEq (hf (toNat_modEq_toInt _) (toNat_modEq_toInt _)), wrapToByte]

/-! ### The statements about each instruction -/

/-- Settles O31: LDI is one write of a register. -/
theorem ldiLoadsTheImmediate : Obligations.LdiLoadsTheImmediate := by
  unfold Obligations.LdiLoadsTheImmediate
  exact fun s a b i hi => ⟨_, withRegister_legal hi, s.writeReg_readReg_same i b, s.writeReg_sameRegs i b,
    fun _ _ => rfl, ⟨rfl, rfl, rfl⟩, rfl⟩

/-- Settles O32: PRN is one append to the output. -/
theorem prnEmitsTheRegister : Obligations.PrnEmitsTheRegister := by
  unfold Obligations.PrnEmitsTheRegister
  exact fun s a i hi => ⟨_, withRegister_legal hi, s.emit_out _, fun _ _ => rfl, fun _ _ => rfl, rfl, rfl, rfl⟩

/-- Settles O33: the three are one operation at three functions. -/
theorem arithmeticIsExactModulo256 : Obligations.ArithmeticIsExactModulo256 := by
  unfold Obligations.ArithmeticIsExactModulo256
  exact fun s a b i j hi hj => ⟨arithmetic_exact opcAdd (fun x y => x + y) s hi hj,
    arithmetic_exact opcSub (fun x y => x - y) s hi hj, arithmetic_exact opcMul (fun x y => x * y) s hi hj⟩

/-- Settles O34: sum, difference and product respect congruence modulo 256. -/
theorem signedReadingGivesTheSameBytes : Obligations.SignedReadingGivesTheSameBytes := by
  unfold Obligations.SignedReadingGivesTheSameBytes
  exact fun s a b i j hi hj => ⟨arithmetic_signed opcAdd (fun x y => x + y) s Int.ModEq.add hi hj,
    arithmetic_signed opcSub (fun x y => x - y) s Int.ModEq.sub hi hj,
    arithmetic_signed opcMul (fun x y => x * y) s Int.ModEq.mul hi hj⟩

/-- Settles O35: PUSH is the push of the register as it reads after the decrement. -/
theorem pushStoresBelowTheStackPointer : Obligations.PushStoresBelowTheStackPointer := by
  unfold Obligations.PushStoresBelowTheStackPointer
  intro s a i hi
  refine ⟨_, withRegister_legal hi, s.pushAddress_toNat, s.pushByte_sp _, ?_, s.pushByte_sameRegs _,
    s.pushByte_sameMem _, ⟨rfl, rfl, rfl⟩, rfl⟩
  rw [← s.decrementSp_readReg_eq i, s.pushByte_memRead_pushAddress]

/-- Settles O36: POP writes its register and then increments the stack pointer, which for R7 is the byte popped. -/
theorem popLoadsFromTheStackPointer : Obligations.PopLoadsFromTheStackPointer := by
  unfold Obligations.PopLoadsFromTheStackPointer
  intro s a v i hi hv
  have hsp := (s.writeReg i v).incrementSp_readReg_seven_toNat
  refine ⟨_, (withRegister_legal hi).trans (withMemByte_readable hv), fun h7 => ⟨?_, ?_⟩, fun h7 => ?_,
    s.writeReg_incrementSp_sameRegs i v, fun _ _ => rfl, ⟨rfl, rfl, rfl⟩, rfl⟩
  · rw [State.incrementSp_readReg, if_neg h7, State.writeReg_readReg_same]
  · rw [hsp, State.writeReg_sp, if_neg h7]
  · rw [hsp, State.writeReg_sp, if_pos h7]

/-- Settles O37: JMP is one redirect. -/
theorem jmpSetsThePc : Obligations.JmpSetsThePc := by
  unfold Obligations.JmpSetsThePc
  exact fun s a i hi => ⟨_, withRegister_legal hi, rfl, rfl, rfl, fun _ _ => rfl, fun _ _ => rfl, rfl⟩

/-- Settles O38: CALL is the push of the return address and a redirect to the register as it reads after it. -/
theorem callPushesTheReturnAddressAndJumps : Obligations.CallPushesTheReturnAddressAndJumps := by
  unfold Obligations.CallPushesTheReturnAddressAndJumps
  intro s a i hi hpc
  exact ⟨_, execCall_legal hi hpc, ⟨s.returnByte, s.returnByte_toNat hpc, s.pushByte_memRead_pushAddress _⟩,
    s.pushAddress_toNat, s.pushByte_sp s.returnByte, congrArg BitVec.toNat (s.pushByte_readReg s.returnByte i),
    rfl, rfl, s.pushByte_sameRegs s.returnByte, s.pushByte_sameMem s.returnByte, rfl⟩

/-- Settles O39: RET is a redirect to the byte popped and an increment of the stack pointer. -/
theorem retPopsThePc : Obligations.RetPopsThePc := by
  unfold Obligations.RetPopsThePc
  intro s v hv
  exact ⟨_, withMemByte_readable hv, rfl, (s.redirectTo v).incrementSp_readReg_seven_toNat, rfl, rfl,
    (s.redirectTo v).incrementSp_sameRegs, fun _ _ => rfl, rfl⟩

/-- Settles O40: HLT writes the run state alone. -/
theorem hltOnlyHalts : Obligations.HltOnlyHalts := by
  unfold Obligations.HltOnlyHalts
  exact fun s => ⟨s.halt, rfl, rfl, rfl, rfl, fun _ _ => rfl, fun _ _ => rfl, rfl⟩

/-! ### Registers written (the table of 10_state.md R15) -/

theorem namedRegister_eq {a : Byte} {r : Fin Config.numRegs} (h : a.toNat = r.val) : namedRegister a = [r] := by
  have hlt : a.toNat < Config.numRegs := h ▸ r.isLt
  rw [namedRegister, dif_pos hlt]
  simp only [h]

theorem SameRegsExcept.of_named {a : Byte} {r : Fin Config.numRegs} {s t : State} (hr : a.toNat = r.val)
    (h : SameRegsExcept [r] s t) : SameRegsExcept (namedRegister a) s t := by
  rwa [namedRegister_eq hr]

/-- An effect writes no register but those the table lists. -/
theorem Effect.sameRegs {i : Instr} {s u : State} (h : Effect i s u) :
    SameRegsExcept (registersWritten i) s u := by
  cases i with
  | ldi a b =>
    obtain ⟨r, hr, rfl⟩ := h
    exact SameRegsExcept.of_named hr (s.writeReg_sameRegs r b)
  | add a b | sub a b | mul a b =>
    obtain ⟨r, q, hr, -, rfl⟩ := h
    exact SameRegsExcept.of_named hr (s.writeReg_sameRegs r _)
  | push a =>
    obtain ⟨r, -, rfl⟩ := h
    exact s.pushByte_sameRegs _
  | pop a =>
    obtain ⟨r, v, hr, -, rfl⟩ := h
    intro j hj
    rw [registersWritten, namedRegister_eq hr] at hj
    exact s.writeReg_incrementSp_sameRegs r v j fun hmem => hj ((List.Perm.swap 7 r []).mem_iff.1 hmem)
  | call a =>
    obtain ⟨r, -, -, rfl⟩ := h
    exact s.pushByte_sameRegs s.returnByte
  | ret =>
    obtain ⟨v, -, rfl⟩ := h
    exact (s.redirectTo v).incrementSp_sameRegs
  | prn a | jmp a =>
    obtain ⟨r, -, rfl⟩ := h
    exact fun _ _ => rfl
  | hlt =>
    cases h
    exact fun _ _ => rfl

/-! ### Registers read: states that are the same up to one register -/

theorem State.writeReg_writeReg_same (s : State) (r : Fin Config.numRegs) (v w : Byte) :
    (s.writeReg r v).writeReg r w = s.writeReg r w := by
  simp only [State.writeReg, Vector.set_set]

theorem State.writeReg_comm (s : State) {i r : Fin Config.numRegs} (h : i ≠ r) (v w : Byte) :
    (s.writeReg i v).writeReg r w = (s.writeReg r w).writeReg i v := by
  simp only [State.writeReg, Vector.set_comm v w (Fin.val_ne_of_ne h)]

/-- The two states differ in register `r` at most. -/
def SameUpTo (r : Fin Config.numRegs) (s t : State) : Prop := ∀ w, t.writeReg r w = s.writeReg r w

namespace SameUpTo

variable {r : Fin Config.numRegs} {s t : State}

theorem of_writeReg (s : State) (r : Fin Config.numRegs) (v : Byte) : SameUpTo r s (s.writeReg r v) :=
  s.writeReg_writeReg_same r v

theorem pc_eq (h : SameUpTo r s t) : t.pc = s.pc := by
  rw [← t.writeReg_pc r 0, h 0, s.writeReg_pc]

theorem memRead_eq (h : SameUpTo r s t) (addr : Nat) : t.memRead addr = s.memRead addr := by
  rw [← t.writeReg_memRead r 0, h 0, s.writeReg_memRead]

theorem readReg_eq (h : SameUpTo r s t) {i : Fin Config.numRegs} (hi : i ≠ r) : t.readReg i = s.readReg i := by
  rw [← t.writeReg_readReg_other 0 hi, h 0, s.writeReg_readReg_other 0 hi]

/-- An operation that does not touch register `r` keeps the relation. -/
theorem map (h : SameUpTo r s t) (f : State → State) (hf : ∀ s w, (f s).writeReg r w = f (s.writeReg r w)) :
    SameUpTo r (f s) (f t) := by
  intro w
  rw [hf, hf, h w]

theorem writeReg (h : SameUpTo r s t) (i : Fin Config.numRegs) (v : Byte) :
    SameUpTo r (s.writeReg i v) (t.writeReg i v) := by
  by_cases hi : i = r
  · subst hi
    intro w
    rw [State.writeReg_writeReg_same, State.writeReg_writeReg_same, h w]
  · exact h.map (State.writeReg · i v) fun s w => s.writeReg_comm hi v w

theorem sp_eq (h : SameUpTo r s t) (h7 : 7 ≠ r) : t.sp = s.sp := h.readReg_eq h7

theorem pushAddress_eq (h : SameUpTo r s t) (h7 : 7 ≠ r) : t.pushAddress = s.pushAddress := by
  rw [State.pushAddress, h.sp_eq h7, State.pushAddress]

theorem decrementSp (h : SameUpTo r s t) (h7 : 7 ≠ r) : SameUpTo r s.decrementSp t.decrementSp := by
  rw [State.decrementSp, State.decrementSp, h.pushAddress_eq h7]
  exact h.writeReg _ _

theorem incrementSp (h : SameUpTo r s t) (h7 : 7 ≠ r) : SameUpTo r s.incrementSp t.incrementSp := by
  rw [State.incrementSp, State.incrementSp, h.sp_eq h7]
  exact h.writeReg _ _

theorem pushByte (h : SameUpTo r s t) (h7 : 7 ≠ r) (v : Byte) : SameUpTo r (s.pushByte v) (t.pushByte v) := by
  rw [State.pushByte, State.pushByte, h.pushAddress_eq h7]
  exact (h.decrementSp h7).map (State.memWrite · _ v) fun _ _ => rfl

end SameUpTo

/-- The two outcomes are next states that differ in register `r` at most. -/
def NextSameUpTo (r : Fin Config.numRegs) (x y : Host.Outcome State Fault Refusal) : Prop :=
  ∃ t t', x = .next t ∧ y = .next t' ∧ SameUpTo r t t'

theorem SameUpTo.next {r : Fin Config.numRegs} {s t : State} (h : SameUpTo r s t) :
    NextSameUpTo r (.next s) (.next t) := ⟨s, t, rfl, rfl, h⟩

section
variable {r : Fin Config.numRegs} {s s' : State}

theorem SameUpTo.raise (h : SameUpTo r s s') (info : FaultInfo) :
    NextSameUpTo r (.next (s.raise info)) (.next (s'.raise info)) :=
  (h.map (State.raise · info) fun _ _ => rfl).next

/-- The register check does not read the register. -/
theorem withRegister_sameUpTo {op a : Byte} {handler handler' : Fin Config.numRegs → Host.Outcome State Fault Refusal}
    (h : SameUpTo r s s') (hh : ∀ i : Fin Config.numRegs, a.toNat = i.val → NextSameUpTo r (handler i) (handler' i)) :
    NextSameUpTo r (withRegister op a s handler) (withRegister op a s' handler') := by
  obtain ⟨i, hi⟩ | ha := register_cases a
  · rw [withRegister_legal hi, withRegister_legal hi]
    exact hh i hi
  · rw [withRegister_illegal ha, withRegister_illegal ha, h.pc_eq]
    exact h.raise _

/-- A memory read at the stack pointer reads no other register. -/
theorem withMemByte_sp_sameUpTo {handler handler' : Byte → Host.Outcome State Fault Refusal} (h : SameUpTo r s s')
    (h7 : 7 ≠ r) (hh : ∀ v, NextSameUpTo r (handler v) (handler' v)) :
    NextSameUpTo r (withMemByte s.sp.toNat s handler) (withMemByte s'.sp.toNat s' handler') := by
  rw [h.sp_eq h7]
  cases hv : s.memRead s.sp.toNat with
  | some v =>
    rw [withMemByte_readable hv, withMemByte_readable ((h.memRead_eq _).trans hv)]
    exact hh v
  | none =>
    rw [withMemByte_unreadable hv, withMemByte_unreadable ((h.memRead_eq _).trans hv), h.pc_eq]
    exact h.raise _

theorem ne_of_not_mem_namedRegister {a : Byte} {i : Fin Config.numRegs} (hr : r ∉ namedRegister a)
    (hi : a.toNat = i.val) : i ≠ r := by
  rw [namedRegister_eq hi] at hr
  exact (List.ne_of_not_mem_cons hr).symm

theorem arithmetic_sameUpTo (op : Byte) (f : Int → Int → Int) {a b : Byte} (h : SameUpTo r s s')
    (hr : r ∉ namedRegister a ++ namedRegister b) :
    NextSameUpTo r (arithmetic op f a b s) (arithmetic op f a b s') := by
  rw [List.mem_append, not_or] at hr
  refine withRegister_sameUpTo h fun i hi => withRegister_sameUpTo h fun j hj => ?_
  rw [h.readReg_eq (ne_of_not_mem_namedRegister hr.1 hi), h.readReg_eq (ne_of_not_mem_namedRegister hr.2 hj)]
  exact (h.writeReg i _).next

theorem execCall_sameUpTo {a : Byte} (h : SameUpTo r s s') (h7 : 7 ≠ r) (hr : r ∉ namedRegister a) :
    NextSameUpTo r (execCall a s) (execCall a s') := by
  refine withRegister_sameUpTo h fun i hi => ?_
  have hpushed := h.pushByte h7 (BitVec.ofNat 8 s.returnAddress)
  have hret : s'.returnAddress = s.returnAddress := by rw [State.returnAddress, h.pc_eq, State.returnAddress]
  rw [hret]
  split
  · rw [h.pc_eq]
    exact h.raise _
  · dsimp only
    rw [hpushed.readReg_eq (ne_of_not_mem_namedRegister hr hi)]
    exact (hpushed.map (State.redirectTo · _) fun _ _ => rfl).next

/-- An instruction does the same up to a register that its row does not list as read. -/
theorem exec_sameUpTo {i : Instr} (hr : r ∉ registersRead i) (h : SameUpTo r s s') :
    NextSameUpTo r (exec i s) (exec i s') := by
  cases i with
  | ldi a b => exact withRegister_sameUpTo h fun i _ => (h.writeReg i b).next
  | prn a =>
    refine withRegister_sameUpTo h fun i hi => ?_
    rw [h.readReg_eq (ne_of_not_mem_namedRegister hr hi)]
    exact (h.map (State.emit · _) fun _ _ => rfl).next
  | add a b | sub a b | mul a b => exact arithmetic_sameUpTo _ _ h hr
  | push a =>
    have h7 : 7 ≠ r := (List.ne_of_not_mem_cons hr).symm
    have ha : r ∉ namedRegister a := List.not_mem_of_not_mem_cons hr
    refine withRegister_sameUpTo h fun i hi => ?_
    rw [(h.decrementSp h7).readReg_eq (ne_of_not_mem_namedRegister ha hi)]
    exact (h.pushByte h7 _).next
  | pop a =>
    have h7 : 7 ≠ r := (List.ne_of_not_mem_cons hr).symm
    exact withRegister_sameUpTo h fun i _ => withMemByte_sp_sameUpTo h h7 fun v =>
      ((h.writeReg i v).incrementSp h7).next
  | jmp a =>
    refine withRegister_sameUpTo h fun i hi => ?_
    rw [h.readReg_eq (ne_of_not_mem_namedRegister hr hi)]
    exact (h.map (State.redirectTo · _) fun _ _ => rfl).next
  | call a =>
    have h7 : 7 ≠ r := (List.ne_of_not_mem_cons hr).symm
    exact execCall_sameUpTo h h7 (List.not_mem_of_not_mem_cons hr)
  | ret =>
    have h7 : 7 ≠ r := (List.ne_of_not_mem_cons hr).symm
    exact withMemByte_sp_sameUpTo h h7 fun v =>
      ((h.map (State.redirectTo · v) fun _ _ => rfl).incrementSp h7).next
  | hlt => exact (h.map State.halt fun _ _ => rfl).next

end

/-- Settles O10: the effects write what the table lists, and a meaning keeps two states the same up to a register it
does not list as read. -/
theorem onlyListedRegistersReadAndWritten : Obligations.OnlyListedRegistersReadAndWritten := by
  unfold Obligations.OnlyListedRegistersReadAndWritten
  refine ⟨fun i s t h => ?_, fun i s t r v hr h => ?_⟩
  · obtain ⟨info, rfl, -⟩ | heffect := exec_raise_or_effect h
    · exact fun _ _ => rfl
    · exact heffect.sameRegs
  · obtain ⟨u, t', hu, ht', hsame⟩ := exec_sameUpTo hr (.of_writeReg s r v)
    cases h.symm.trans hu
    exact ⟨t', ht', hsame⟩

end Sys2Proof.Machine
end

section
/-! SUPPORT. Whole rules, from the bytes at the pc to the next state (41_data_movement.md to 44_control_transfer.md), and
the statements about more than one step. -/

namespace Sys2Proof.Machine

/-! ### Bytes in memory as the bytes of an instruction -/

theorem bytesAt_one {s : State} {addr : Nat} {x : Byte} (hx : s.memRead addr = some x) :
    bytesAt s addr [x] = true :=
  (bytesAt_cons ..).2 ⟨hx, rfl⟩

theorem bytesAt_two {s : State} {addr : Nat} {x y : Byte} (hx : s.memRead addr = some x)
    (hy : s.memRead (addr + 1) = some y) : bytesAt s addr [x, y] = true :=
  (bytesAt_cons ..).2 ⟨hx, bytesAt_one hy⟩

theorem bytesAt_three {s : State} {addr : Nat} {x y z : Byte} (hx : s.memRead addr = some x)
    (hy : s.memRead (addr + 1) = some y) (hz : s.memRead (addr + 2) = some z) : bytesAt s addr [x, y, z] = true :=
  (bytesAt_cons ..).2 ⟨hx, bytesAt_two hy hz⟩

/-! ### Operand bytes that are not readable -/

/-- The fetch faults of an opcode byte that asks for operands (40_execution_loop.md R73). -/
theorem operandFetchFaults_of_count {s : State} {op : Byte} (hrun : s.run = .running) (hop : s.memRead s.pc = some op)
    (hcount : 1 ≤ operandCount op) :
    (s.memRead (s.pc + 1) = none → FaultsWith s (.uninitializedMemoryAccess s.pc (s.pc + 1))) ∧
    (operandCount op = 2 → s.memRead (s.pc + 1) ≠ none → s.memRead (s.pc + 2) = none →
      FaultsWith s (.uninitializedMemoryAccess s.pc (s.pc + 2))) := by
  have hh : op ≠ opcHlt := by
    rintro rfl
    rw [operandCount_opcHlt] at hcount
    exact Nat.not_succ_le_zero 0 hcount
  obtain ⟨hfirst, hsecond, -, -⟩ := operandFetchFaults s op hrun hop hh
  exact ⟨hfirst hcount, hsecond⟩

/-! ### ADD, SUB and MUL at once -/

/-- `instr` is the two-operand instruction with opcode `op` whose meaning is the arithmetic of `f`. -/
structure IsArithmetic (op : Byte) (f : Int → Int → Int) (instr : Byte → Byte → Instr) : Prop where
  encode_eq : ∀ a b, encode (instr a b) = [op, a, b]
  exec_eq : ∀ a b s, exec (instr a b) s = arithmetic op f a b s
  effect_iff : ∀ a b s u, Effect (instr a b) s u ↔ ArithmeticEffect f a b s u
  not_transfer : ∀ a b, isTransfer (instr a b) = false
  ne_hlt : ∀ a b, instr a b ≠ .hlt

theorem exists_isArithmetic {op : Byte} {f : Int → Int → Int}
    (h : op = 0xA0 ∧ f = (fun x y => x + y) ∨ op = 0xA1 ∧ f = (fun x y => x - y) ∨
      op = 0xA2 ∧ f = (fun x y => x * y)) : ∃ instr, IsArithmetic op f instr := by
  obtain ⟨rfl, rfl⟩ | ⟨rfl, rfl⟩ | ⟨rfl, rfl⟩ := h
  · exact ⟨.add, fun _ _ => rfl, fun _ _ _ => rfl, fun _ _ _ _ => .rfl, fun _ _ => rfl, nofun⟩
  · exact ⟨.sub, fun _ _ => rfl, fun _ _ _ => rfl, fun _ _ _ _ => .rfl, fun _ _ => rfl, nofun⟩
  · exact ⟨.mul, fun _ _ => rfl, fun _ _ _ => rfl, fun _ _ _ _ => .rfl, fun _ _ => rfl, nofun⟩

theorem IsArithmetic.operandCount_eq {op : Byte} {f : Int → Int → Int} {instr : Byte → Byte → Instr}
    (h : IsArithmetic op f instr) : operandCount op = 2 := by
  obtain ⟨hop, hoperands⟩ := List.cons.inj (h.encode_eq 0 0)
  rw [← hop, operandCount_opcode, hoperands]
  rfl

/-! ### The steps of the transfers -/

theorem step_jmp {s : State} {a : Byte} {i : Fin 8} (hrun : s.run = .running)
    (hbytes : bytesAt s s.pc (encode (.jmp a)) = true) (hi : a.toNat = i.val) :
    step s = .next { s with pc := (s.readReg i).toNat, redirect := false } :=
  step_of_transfer hrun hbytes ⟨i, hi, rfl⟩ rfl

theorem step_ret {s : State} {v : Byte} (hrun : s.run = .running) (hbytes : bytesAt s s.pc (encode .ret) = true)
    (hv : s.memRead s.sp.toNat = some v) :
    step s = .next { (s.redirectTo v).incrementSp with redirect := false } :=
  step_of_transfer hrun hbytes (i := .ret) (u := (s.clearRedirect.redirectTo v).incrementSp) ⟨v, hv, rfl⟩ rfl

/-- A CALL whose step goes on has pushed its return address, the address of the instruction after it. -/
theorem pushed_of_step_call {s t : State} {a : Byte} (hrun : s.run = .running)
    (hbytes : bytesAt s s.pc (encode (.call a)) = true) (h : step s = .next t) (ht : t.run = .running) :
    t.sp = s.sp - 1 ∧ ∃ v : Byte, v.toNat = s.pc + 2 ∧ t.memRead t.sp.toNat = some v := by
  obtain ⟨u, hexec⟩ := exec_next (.call a) s.clearRedirect
  cases h.symm.trans (step_fetched hrun hbytes hexec)
  rw [State.pcUpdate_run] at ht
  obtain ⟨info, rfl, -⟩ | ⟨r, -, hret, rfl⟩ := exec_raise_or_effect hexec
  · cases ht
  · rw [State.pcUpdate_sp, State.pcUpdate_memRead]
    exact ⟨s.clearRedirect.pushByte_sp s.returnByte, s.returnByte, s.returnByte_toNat hret,
      s.clearRedirect.pushByte_memRead_sp s.returnByte⟩

/-! ### The statements about whole rules -/

/-- Settles O41: the fetch faults, the register check, and the step with LDI's effect. -/
theorem ldiRuleFromItsBytes : Obligations.LdiRuleFromItsBytes := by
  unfold Obligations.LdiRuleFromItsBytes
  refine fun s hrun => ⟨opcodeFetchFaults s hrun, fun hop => ?_⟩
  have hcount : operandCount 0x82 = 2 := operandCount_opcode (.ldi 0 0)
  obtain ⟨hfirst, hsecond⟩ := operandFetchFaults_of_count hrun hop (by omega)
  refine ⟨hfirst, hsecond hcount, fun a b ha hb => ?_⟩
  have hbytes : bytesAt s s.pc (encode (.ldi a b)) = true := bytesAt_three hop ha hb
  refine ⟨fun hbad => faultsWith_of_exec_raise hrun hbytes (withRegister_illegal hbad), fun i hi => ?_⟩
  exact ⟨_, step_of_advance hrun hbytes ⟨i, hi, rfl⟩ rfl nofun, s.writeReg_readReg_same i b, rfl, hrun, rfl,
    s.writeReg_sameRegs i b, fun _ _ => rfl, rfl⟩

/-- Settles O42: the three are one operation at three functions, with the fetch faults and both register checks. -/
theorem arithmeticRulesFromTheirBytes : Obligations.ArithmeticRulesFromTheirBytes := by
  unfold Obligations.ArithmeticRulesFromTheirBytes
  intro s op f hrun hinstr
  obtain ⟨instr, hinstr⟩ := exists_isArithmetic hinstr
  refine ⟨opcodeFetchFaults s hrun, fun hop => ?_⟩
  have hcount := hinstr.operandCount_eq
  obtain ⟨hfirst, hsecond⟩ := operandFetchFaults_of_count hrun hop (by omega)
  refine ⟨hfirst, hsecond hcount, fun a b ha hb => ?_⟩
  have hbytes : bytesAt s s.pc (encode (instr a b)) = true := hinstr.encode_eq a b ▸ bytesAt_three hop ha hb
  have hexec := hinstr.exec_eq a b s.clearRedirect
  refine ⟨fun hbad => ?_, fun hok hbad => ?_, fun i j hi hj => ?_⟩
  · exact faultsWith_of_exec_raise hrun hbytes (hexec.trans (withRegister_illegal hbad))
  · exact faultsWith_of_exec_raise hrun hbytes (hexec.trans (arithmetic_secondIllegal hok hbad))
  · have heffect := (hinstr.effect_iff a b s.clearRedirect _).2 ⟨i, j, hi, hj, rfl⟩
    refine ⟨_, step_of_advance hrun hbytes heffect (hinstr.not_transfer a b) (hinstr.ne_hlt a b),
      s.writeReg_wrapToByte_toNat i _, ?_, hrun, rfl, s.writeReg_sameRegs i _, fun _ _ => rfl, rfl⟩
    rw [hinstr.encode_eq]
    rfl

/-- Settles O43: the fetch faults, the register check, and the step with JMP's effect. -/
theorem jmpRuleFromItsBytes : Obligations.JmpRuleFromItsBytes := by
  unfold Obligations.JmpRuleFromItsBytes
  refine fun s hrun => ⟨opcodeFetchFaults s hrun, fun hop => ?_⟩
  have hcount : operandCount 0x54 = 1 := operandCount_opcode (.jmp 0)
  obtain ⟨hfirst, -⟩ := operandFetchFaults_of_count hrun hop (by omega)
  refine ⟨hfirst, fun a ha => ?_⟩
  have hbytes : bytesAt s s.pc (encode (.jmp a)) = true := bytesAt_two hop ha
  exact ⟨fun hbad => faultsWith_of_exec_raise hrun hbytes (withRegister_illegal hbad), fun i => step_jmp hrun hbytes⟩

/-- Settles O44: the fetch fault, the read at the stack pointer, and the step with RET's effect. -/
theorem retRuleFromItsByte : Obligations.RetRuleFromItsByte := by
  unfold Obligations.RetRuleFromItsByte
  refine fun s hrun => ⟨opcodeFetchFaults s hrun, fun hop => ?_⟩
  have hbytes : bytesAt s s.pc (encode .ret) = true := bytesAt_one hop
  refine ⟨fun hnone => faultsWith_of_exec_raise hrun hbytes (withMemByte_unreadable hnone), fun v hv => ?_⟩
  exact ⟨_, step_ret hrun hbytes hv, rfl, (s.redirectTo v).incrementSp_readReg_seven_toNat, hrun, rfl,
    (s.redirectTo v).incrementSp_sameRegs, fun _ _ => rfl, rfl⟩

/-! ### The statements about more than one step -/

/-- Settles O45: the POP reads the byte just pushed, into the register it came from, and the stack pointer goes back. -/
theorem pushThenPopRestoresTheRegisters : Obligations.PushThenPopRestoresTheRegisters := by
  unfold Obligations.PushThenPopRestoresTheRegisters
  intro s a i hi h7
  have hpushed : s.decrementSp.readReg i = s.readReg i := (s.decrementSp_readReg i).trans (if_neg h7)
  have hpush : exec (.push a) s = .next (s.pushByte (s.readReg i)) := by
    rw [← hpushed]
    exact withRegister_legal hi
  have htop : (s.pushByte (s.readReg i)).memRead (s.pushByte (s.readReg i)).sp.toNat = some (s.readReg i) :=
    s.pushByte_memRead_sp _
  refine ⟨_, _, hpush, (withRegister_legal hi).trans (withMemByte_readable htop), fun j _ => ?_,
    s.pushByte_sameMem _, s.pushByte_memRead_pushAddress _, ⟨rfl, rfl, rfl⟩, rfl⟩
  rw [State.incrementSp_readReg]
  split
  · next hj =>
    rw [State.writeReg_sp, if_neg h7, State.pushByte_sp, BitVec.sub_add_cancel, hj]
    rfl
  · next hj =>
    rw [State.writeReg_readReg, State.pushByte_readReg, if_neg hj]
    split
    · next hij => rw [hij]
    · rfl

/-- Settles O46: RET pops the return address that CALL has pushed. -/
theorem retReturnsAfterTheCall : Obligations.RetReturnsAfterTheCall := by
  unfold Obligations.RetReturnsAfterTheCall
  intro s t u a hs hcall hstep ht hu hret hsp htop
  obtain ⟨htsp, v, hv, htread⟩ := pushed_of_step_call hs hcall hstep ht
  refine ⟨_, step_ret hu hret (htop.trans htread), hv, ?_, hu⟩
  calc (u.redirectTo v).incrementSp.sp
    _ = u.sp + 1 := State.incrementSp_sp _
    _ = s.sp - 1 + 1 := by rw [hsp, htsp]
    _ = s.sp := BitVec.sub_add_cancel s.sp 1

/-- Settles O47: each step gives the state back. -/
theorem jumpToItselfRunsForEver : Obligations.JumpToItselfRunsForEver := by
  unfold Obligations.JumpToItselfRunsForEver
  intro s a i hrun hredirect hbytes hi hself n
  have hstep : step s = .next s := by
    rw [step_jmp hrun hbytes hi, hself, ← hredirect]
  induction n with
  | zero => rfl
  | succ n ih => rw [runFor_succ_of_step n hstep, ih]

/-- Settles O48: the push stores the byte that the next opcode fetch reads. -/
theorem pushedByteIsExecutedNext : Obligations.PushedByteIsExecutedNext := by
  unfold Obligations.PushedByteIsExecutedNext
  intro s a i v hrun hbytes hi haddr hv
  rw [← s.decrementSp_readReg_eq i] at hv
  subst hv
  have hfetched := s.pushByte_memRead_pushAddress (s.decrementSp.readReg i)
  rw [haddr] at hfetched
  refine ⟨_, step_of_advance hrun hbytes ⟨i, hi, rfl⟩ rfl nofun, rfl, hfetched, fun hhlt => ?_, fun hu hcount => ?_⟩
  · exact step_hlt hrun (hhlt ▸ hfetched)
  · exact faultsWith_unsupportedOperation hrun hfetched hu (by simp [operandsReadable, hcount])

end Sys2Proof.Machine
end

section
/-! SUPPORT. The host's side (70_reset_and_hazards.md section 1): LOAD at its limits, a word stored at the pc, and the
text of the output. -/

namespace Sys2Proof.Machine

/-! ### A word stored at the pc -/

theorem bytesAt_placeBytes (s : State) (addr : Nat) {bytes : List Byte} (h : addr + bytes.length ≤ 0x100) :
    bytesAt (s.placeBytes addr bytes) addr bytes = true := by
  induction bytes generalizing s addr with
  | nil => rfl
  | cons v vs ih =>
    rw [List.length_cons] at h
    obtain ⟨t, hp, -⟩ := s.placeBytes_cons addr v vs
    refine (bytesAt_cons ..).2 ⟨s.placeBytes_memRead_placed addr (v :: vs) (k := 0) (Nat.succ_pos _) (by omega), ?_⟩
    rw [hp]
    exact ih t (addr + 1) (by omega)

/-- After `withFetchWord` the bytes of the word stand at the pc, where there is room for three. -/
theorem bytesAt_withFetchWord (s : State) (nbits w : Nat) (h : s.pc ≤ 0xFD) :
    bytesAt (s.withFetchWord nbits w) (s.withFetchWord nbits w).pc (tableWordBytes nbits w) = true := by
  rw [State.withFetchWord, State.placeBytes_pc]
  exact bytesAt_placeBytes s s.pc (Nat.add_le_add_right h 3)

/-- Settles O53: the bytes of a word that decodes begin with the encoding of its instruction, which the step fetches. -/
theorem fetchWordIsRunNext : Obligations.FetchWordIsRunNext := by
  unfold Obligations.FetchWordIsRunNext
  intro s nbits w i hrun hpc hdecode
  obtain ⟨rest, hword⟩ := decodeTableWord_eq_some_iff.1 hdecode
  have hplaced := bytesAt_withFetchWord s nbits w hpc
  rw [hword] at hplaced
  obtain ⟨u, hexec⟩ := exec_next i (s.withFetchWord nbits w).clearRedirect
  exact ⟨u, hexec, step_fetched ((s.placeBytes_run ..).trans hrun) ((bytesAt_append ..).1 hplaced).1 hexec⟩

/-! ### LOAD at its limits -/

/-- Settles O3: the length check of LOAD, and a fetch from the memory of the reset state, where no cell is valid. -/
theorem tooLongImageRefusedEmptyImageFaults : Obligations.TooLongImageRefusedEmptyImageFaults := by
  unfold Obligations.TooLongImageRefusedEmptyImageFaults
  refine ⟨fun image hlen => if_pos hlen, State.reset, load_eq_placeBytes State.reset (Nat.zero_le _), ?_⟩
  exact opcodeFetchFaults State.reset rfl (.inr (State.reset_memRead _))

/-! ### The text of the output -/

/-- The decimal digits of a number below 1000, the most significant first, without leading zeros. -/
def decimalDigits (n : Nat) : List Nat :=
  if n < 10 then [n] else if n < 100 then [n / 10, n % 10] else [n / 100, n / 10 % 10, n % 10]

theorem renderValue_eq_decimalDigits (v : Byte) :
    renderValue v = (decimalDigits v.toNat).map digitCode ++ [0x0A] := by
  simp only [renderValue, decimalDigits, apply_ite (List.map digitCode), List.map_cons, List.map_nil]

theorem decimalDigits_ne_nil (n : Nat) : decimalDigits n ≠ [] := by
  unfold decimalDigits
  split
  · nofun
  · split
    · nofun
    · nofun

theorem decimalDigits_lt {n : Nat} (h : n < 1000) : ∀ d ∈ decimalDigits n, d < 10 := by
  unfold decimalDigits
  split
  · simpa only [List.forall_mem_singleton]
  · split
    · simp only [List.mem_cons, List.not_mem_nil, or_false, forall_eq_or_imp, forall_eq]
      omega
    · simp only [List.mem_cons, List.not_mem_nil, or_false, forall_eq_or_imp, forall_eq]
      omega

theorem decimalDigits_no_leading_zero (n : Nat) :
    (decimalDigits n).head? = some 0 → (decimalDigits n).length = 1 := by
  unfold decimalDigits
  split
  · exact fun _ => rfl
  · split
    · rw [List.head?_cons, Option.some_inj]
      omega
    · rw [List.head?_cons, Option.some_inj]
      omega

theorem decimalDigits_value (n : Nat) : (decimalDigits n).foldl (fun n d => 10 * n + d) 0 = n := by
  unfold decimalDigits
  split
  · exact Nat.zero_add n
  · split
    · simp only [List.foldl_cons, List.foldl_nil]
      omega
    · simp only [List.foldl_cons, List.foldl_nil]
      omega

theorem renderOut_append (out more : List Byte) : renderOut (out ++ more) = renderOut out ++ renderOut more := by
  induction out with
  | nil => rfl
  | cons v vs ih => rw [List.cons_append, renderOut, ih, renderOut, List.append_assoc]

/-- Settles O50: the digits are those of the byte's value, and a stream is rendered value by value. -/
theorem renderingIsUnsignedDecimalLines : Obligations.RenderingIsUnsignedDecimalLines := by
  unfold Obligations.RenderingIsUnsignedDecimalLines
  refine ⟨fun v => ?_, renderOut_append, fun v => List.append_nil _⟩
  have hlt : v.toNat < 1000 := v.isLt.trans (by decide)
  exact ⟨decimalDigits v.toNat, decimalDigits_ne_nil _, decimalDigits_lt hlt, decimalDigits_no_leading_zero _,
    decimalDigits_value _, renderValue_eq_decimalDigits v⟩

end Sys2Proof.Machine
end
